-- ==== Sys2Proof/Word.lean ====
section
/-! DEFINITION. The word types of the crusty VLC decode block: 32-bit registers and command words (R27, R70), and bytes
of a byte-held stream (R52). -/

namespace Sys2Proof

/-- A 32-bit register, command or bus word (R27, R70, R54). -/
abbrev Word := BitVec 32

/-- A byte of a stream that the host holds in a byte array (R52). -/
abbrev Byte := BitVec 8

end Sys2Proof
end

