-- ==== Sys2Proof/Syntax.lean ====
section
/-! DEFINITION. The codebook numbers (R22, R72) and the six commands (R71), one constructor per row of the opcode table. -/

namespace Sys2Proof

/-- The kinds of codebook of R22. -/
inductive Kind where
  | quad
  | pairSigned
  | pairUnsigned
  | esc
  | sf
  deriving DecidableEq, Repr

/-- The twelve codebook numbers that R72 lets the CB field name: 0 and 13 to 15 name no codebook. -/
inductive Codebook where
  | cb1
  | cb2
  | cb3
  | cb4
  | cb5
  | cb6
  | cb7
  | cb8
  | cb9
  | cb10
  | cb11
  | cb12
  deriving DecidableEq, Repr

/-- The commands of R71. The codebook operand is the command word's CB field (R75); whether it is of the command's kind is
checked by `Instr.wf` (R72). -/
inductive Instr where
  /-- BUILD: build codebook `c` if it is unbuilt (R105). -/
  | build (c : Codebook)
  /-- DEC.IDX: decode one symbol index (R106). -/
  | decIdx (c : Codebook)
  /-- DEC.QUAD: decode a quad (R150). -/
  | decQuad (c : Codebook)
  /-- DEC.PAIR: decode a dequantized pair (R151). -/
  | decPair (c : Codebook)
  /-- DEC.ESC: decode an escape category pair (R152). -/
  | decEsc (c : Codebook)
  /-- DEC.SF: decode a scale-factor delta index (R153). -/
  | decSf (c : Codebook)
  deriving DecidableEq, Repr

/-- The pseudo-commands of R79, as an assembler reads them. -/
inductive Pseudo where
  /-- `DECODE c`, for any number `c`. -/
  | decode (c : Nat)
  /-- `DEC.ESC` without an operand. -/
  | decEsc
  /-- `DEC.SF` without an operand. -/
  | decSf
  deriving DecidableEq, Repr

end Sys2Proof
end

