-- ==== Sys2Proof/Machine/Codebooks.lean ====
section
/-! DEFINITION. The fixed facts about each codebook number (R22), the code tables of the registry (R21) and the two
conditions the spec puts on a table: prefix-freeness (R14) and the configuration check (R101). -/

namespace Sys2Proof

/-- The number of a codebook, the value of the CB field that names it (R72). -/
def Codebook.num : Codebook → Nat
  | .cb1 => 1
  | .cb2 => 2
  | .cb3 => 3
  | .cb4 => 4
  | .cb5 => 5
  | .cb6 => 6
  | .cb7 => 7
  | .cb8 => 8
  | .cb9 => 9
  | .cb10 => 10
  | .cb11 => 11
  | .cb12 => 12

/-- The codebook a number names, if any (R72: 0 and 13 to 15 name none). -/
def Codebook.ofNum? : Nat → Option Codebook
  | 1 => some .cb1
  | 2 => some .cb2
  | 3 => some .cb3
  | 4 => some .cb4
  | 5 => some .cb5
  | 6 => some .cb6
  | 7 => some .cb7
  | 8 => some .cb8
  | 9 => some .cb9
  | 10 => some .cb10
  | 11 => some .cb11
  | 12 => some .cb12
  | _ => none

/-- All codebooks, lowest number first. -/
def Codebook.all : List Codebook :=
  [.cb1, .cb2, .cb3, .cb4, .cb5, .cb6, .cb7, .cb8, .cb9, .cb10, .cb11, .cb12]

/-- The kind of each codebook (R22). -/
def Codebook.kind : Codebook → Kind
  | .cb1 => .quad
  | .cb2 => .quad
  | .cb3 => .quad
  | .cb4 => .quad
  | .cb5 => .pairSigned
  | .cb6 => .pairSigned
  | .cb7 => .pairUnsigned
  | .cb8 => .pairUnsigned
  | .cb9 => .pairUnsigned
  | .cb10 => .pairUnsigned
  | .cb11 => .esc
  | .cb12 => .sf

/-- The alphabet size `N` of each codebook (R22). -/
def Codebook.alphabet : Codebook → Nat
  | .cb1 => 81
  | .cb2 => 81
  | .cb3 => 81
  | .cb4 => 81
  | .cb5 => 81
  | .cb6 => 81
  | .cb7 => 64
  | .cb8 => 64
  | .cb9 => 169
  | .cb10 => 169
  | .cb11 => 289
  | .cb12 => 121

/-- The modulus `M` of the pair and escape codebooks (R22); the quad and scale-factor codebooks have none. -/
def Codebook.modulus? : Codebook → Option Nat
  | .cb1 => none
  | .cb2 => none
  | .cb3 => none
  | .cb4 => none
  | .cb5 => some 9
  | .cb6 => some 9
  | .cb7 => some 8
  | .cb8 => some 8
  | .cb9 => some 13
  | .cb10 => some 13
  | .cb11 => some 17
  | .cb12 => none

/-- One entry of the registry: "a parallel pair of arrays", indexed by symbol index (R21). Nothing is assumed of their
lengths or their contents: the build checks them (R101). -/
structure CodeTable where
  codes : List Nat
  lens : List Nat
  deriving DecidableEq, Repr, Inhabited

/-- The codewords `(code, len)` of a table over the indices both arrays have (R21, R13). -/
def CodeTable.words (t : CodeTable) : List (Nat × Nat) :=
  t.codes.zip t.lens

/-- Codeword `x` is a prefix of codeword `y` (R13). -/
def isPrefixOf (x y : Nat × Nat) : Bool :=
  x.2 ≤ y.2 && y.1 / 2 ^ (y.2 - x.2) == x.1

/-- No codeword of the list is a prefix of another one at a distinct index (R14). -/
def prefixFreeWords : List (Nat × Nat) → Bool
  | [] => true
  | x :: xs => xs.all (fun y => !isPrefixOf x y && !isPrefixOf y x) && prefixFreeWords xs

/-- A code table is prefix-free (R14); two equal codewords break it (C5). -/
def CodeTable.prefixFree (t : CodeTable) : Bool :=
  prefixFreeWords t.words

/-- A codeword in the range the build accepts (R101). -/
def codewordInRange (x : Nat × Nat) : Bool :=
  1 ≤ x.2 && x.2 ≤ 19 && x.1 < 2 ^ x.2

/-- The configuration check of codebook `c` (R101). -/
def CodeTable.check (c : Codebook) (t : CodeTable) : Bool :=
  t.codes.length == c.alphabet && t.lens.length == c.alphabet && t.words.all codewordInRange

/-- One value for each of the twelve codebooks. -/
structure PerBook (α : Type) where
  b1 : α
  b2 : α
  b3 : α
  b4 : α
  b5 : α
  b6 : α
  b7 : α
  b8 : α
  b9 : α
  b10 : α
  b11 : α
  b12 : α
  deriving DecidableEq, Repr, Inhabited

/-- The same value for every codebook. -/
def PerBook.replicate {α : Type} (x : α) : PerBook α :=
  ⟨x, x, x, x, x, x, x, x, x, x, x, x⟩

/-- The value of codebook `c`. -/
def PerBook.get {α : Type} (v : PerBook α) : Codebook → α
  | .cb1 => v.b1
  | .cb2 => v.b2
  | .cb3 => v.b3
  | .cb4 => v.b4
  | .cb5 => v.b5
  | .cb6 => v.b6
  | .cb7 => v.b7
  | .cb8 => v.b8
  | .cb9 => v.b9
  | .cb10 => v.b10
  | .cb11 => v.b11
  | .cb12 => v.b12

/-- The value of codebook `c` replaced by `x`. -/
def PerBook.set {α : Type} (v : PerBook α) (c : Codebook) (x : α) : PerBook α :=
  match c with
  | .cb1 => { v with b1 := x }
  | .cb2 => { v with b2 := x }
  | .cb3 => { v with b3 := x }
  | .cb4 => { v with b4 := x }
  | .cb5 => { v with b5 := x }
  | .cb6 => { v with b6 := x }
  | .cb7 => { v with b7 := x }
  | .cb8 => { v with b8 := x }
  | .cb9 => { v with b9 := x }
  | .cb10 => { v with b10 := x }
  | .cb11 => { v with b11 := x }
  | .cb12 => { v with b12 := x }

/-- The registry: a code table for each codebook (R21). -/
abbrev Rom := PerBook CodeTable

/-- Every table of the registry is prefix-free: the only registries the model admits (R21, R192). -/
def Rom.prefixFree (r : Rom) : Bool :=
  Codebook.all.all fun c => (PerBook.get r c).prefixFree

end Sys2Proof
end

