-- ==== Sys2Proof/Config.lean ====
section
/-! DEFINITION. What an implementation fixes (the OPEN parameters of R8) and the one free value of the block (R108).
Every constant here is opaque: nothing in Lean can evaluate it, so what is proved holds for each value. -/

namespace Sys2Proof

/-- A registry the model admits: every table prefix-free (R21, R192; log 1). -/
structure AdmissibleRom where
  rom : Rom := PerBook.replicate ⟨[], []⟩
  ok : rom.prefixFree = true := by decide
  deriving Inhabited

/-- The parameter ROM (R8, R21, D5): the shipped code tables, which the spec does not give. -/
opaque Config.rom : AdmissibleRom

/-- The parameter P (R8, D2), which is at least 1: the block has `extraPorts + 1` ports. -/
opaque Config.extraPorts : Nat

/-- The parameter REG_BASE (R8, R53, D7): the byte address of port 0's register window. -/
opaque Config.regBase : Nat

/-- FREE VALUE (R108, U3, D13; log 7): how far the cursor of port `p` moves at its `k`-th stream error, before it is
brought into the range R108 allows. -/
opaque Config.cursorDraw (p k : Nat) : Nat

end Sys2Proof
end

