-- ==== Sys2Proof/WellFormed.lean ====
section
/-! DEFINITION. Which commands are well formed: the codebooks each opcode accepts (R72). -/

namespace Sys2Proof

/-- Each opcode accepts only the codebooks of its kind (R72). -/
def Instr.wf : Instr → Bool
  | .build _ => true
  | .decIdx _ => true
  | .decQuad c => c.kind == .quad
  | .decPair c => c.kind == .pairSigned || c.kind == .pairUnsigned
  | .decEsc c => c.kind == .esc
  | .decSf c => c.kind == .sf

/-- The command is one of the 36 the block accepts (R72, R78). -/
abbrev Instr.WellFormed (i : Instr) : Prop :=
  i.wf = true

/-- The codebook operand `c` of a command (R75). -/
def Instr.codebook : Instr → Codebook
  | .build c => c
  | .decIdx c => c
  | .decQuad c => c
  | .decPair c => c
  | .decEsc c => c
  | .decSf c => c

/-- The command has the port's cursor as an implicit operand: every command but BUILD (R75, R105). -/
def Instr.readsStream : Instr → Bool
  | .build _ => false
  | .decIdx _ => true
  | .decQuad _ => true
  | .decPair _ => true
  | .decEsc _ => true
  | .decSf _ => true

end Sys2Proof
end

