-- ==== Sys2Proof/Decode.lean ====
section
/-! DEFINITION. The command word (R70 to R79): the decoder, total on 32-bit words and rejecting by name, the spec's own
legality function (R73), the encoder, and the assembler's names. -/

namespace Sys2Proof

/-- Why a word is no command (R74). Each of them completes with ILLEGAL. -/
inductive DecodeError where
  /-- A bit of `w[31:8]` is set (R73). -/
  | reservedBits
  /-- The OP field is 0 or in `[7, 15]` (R71). -/
  | reservedOpcode
  /-- The CB field is 0 or in `[13, 15]` (R72). -/
  | noSuchCodebook
  /-- The codebook is not of the opcode's kind (R72). -/
  | wrongKind
  deriving DecidableEq, Repr

/-- The OP field, `w[3:0]` (R70). -/
def opField (w : Word) : BitVec 4 := w.extractLsb' 0 4

/-- The CB field, `w[7:4]` (R70). -/
def cbField (w : Word) : BitVec 4 := w.extractLsb' 4 4

/-- The RSV field, `w[31:8]` (R70). -/
def rsvField (w : Word) : BitVec 24 := w.extractLsb' 8 24

/-- The command that an OP value and a codebook spell (R71). -/
def commandOf? (op : Nat) (c : Codebook) : Option Instr :=
  match op with
  | 1 => some (.build c)
  | 2 => some (.decIdx c)
  | 3 => some (.decQuad c)
  | 4 => some (.decPair c)
  | 5 => some (.decEsc c)
  | 6 => some (.decSf c)
  | _ => none

/-- The decoder: the command a word spells, or the reason it spells none (R70 to R74). -/
def decode (w : Word) : Except DecodeError Instr :=
  if rsvField w ≠ 0#24 then .error .reservedBits
  else
    match Codebook.ofNum? (cbField w).toNat with
    | none =>
      if (opField w).toNat == 0 || 7 ≤ (opField w).toNat then .error .reservedOpcode
      else .error .noSuchCodebook
    | some c =>
      match commandOf? (opField w).toNat c with
      | none => .error .reservedOpcode
      | some i => if i.wf then .ok i else .error .wrongKind

/-- `legal(w)` as R73 writes it. The decoder is not written from it: that the two agree is a statement. -/
def legal (w : Word) : Bool :=
  let cb := (cbField w).toNat
  rsvField w == 0#24 &&
  match (opField w).toNat with
  | 1 => 1 ≤ cb && cb ≤ 12
  | 2 => 1 ≤ cb && cb ≤ 12
  | 3 => 1 ≤ cb && cb ≤ 4
  | 4 => 5 ≤ cb && cb ≤ 10
  | 5 => cb == 11
  | 6 => cb == 12
  | _ => false

/-- The instruction the decoder reads from a word whose bits are `w`, numbered as the opcode table numbers them. A command
is one 32-bit bus word (R70), so there is no byte order to lay out (R54). -/
def decodeTableWord (nbits w : Nat) : Option Instr :=
  if 2 ^ 32 ≤ w % 2 ^ nbits then none
  else
    match decode (BitVec.ofNat 32 (w % 2 ^ nbits)) with
    | .ok i => some i
    | .error _ => none

/-- The OP value of a command (R71). -/
def Instr.opcode : Instr → BitVec 4
  | .build _ => 0x1#4
  | .decIdx _ => 0x2#4
  | .decQuad _ => 0x3#4
  | .decPair _ => 0x4#4
  | .decEsc _ => 0x5#4
  | .decSf _ => 0x6#4

/-- The encoder: RSV = 0, then CB, then OP, the most significant field first (R70, R77). -/
def encode (i : Instr) : Word :=
  0#24 ++ (BitVec.ofNat 4 i.codebook.num) ++ i.opcode

/-- The mnemonic of a command (R71). -/
def Instr.mnemonic : Instr → String
  | .build _ => "BUILD"
  | .decIdx _ => "DEC.IDX"
  | .decQuad _ => "DEC.QUAD"
  | .decPair _ => "DEC.PAIR"
  | .decEsc _ => "DEC.ESC"
  | .decSf _ => "DEC.SF"

/-- A codebook number in decimal, as R77 writes it. -/
def Codebook.decimal : Codebook → String
  | .cb1 => "1"
  | .cb2 => "2"
  | .cb3 => "3"
  | .cb4 => "4"
  | .cb5 => "5"
  | .cb6 => "6"
  | .cb7 => "7"
  | .cb8 => "8"
  | .cb9 => "9"
  | .cb10 => "10"
  | .cb11 => "11"
  | .cb12 => "12"

/-- The assembly text of a command: the mnemonic, then the codebook number in decimal (R77). -/
def Instr.asm (i : Instr) : String :=
  i.mnemonic ++ " " ++ i.codebook.decimal

/-- Every command of the syntax, well formed or not, in the order of R71. -/
def Instr.all : List Instr :=
  Codebook.all.map .build ++ Codebook.all.map .decIdx ++ Codebook.all.map .decQuad ++
    Codebook.all.map .decPair ++ Codebook.all.map .decEsc ++ Codebook.all.map .decSf

/-- The commands that encode to a legal word (R78). -/
def Instr.legalOnes : List Instr :=
  Instr.all.filter Instr.wf

/-- The assembler on one command: the legal command whose text it is (R77). -/
def assemble? (text : String) : Option Instr :=
  Instr.legalOnes.find? fun i => i.asm == text

/-- The command `DECODE c` stands for, by the codebook's kind (R79). -/
def decodeCommandOf (c : Codebook) : Instr :=
  match c.kind with
  | .quad => .decQuad c
  | .pairSigned => .decPair c
  | .pairUnsigned => .decPair c
  | .esc => .decEsc c
  | .sf => .decSf c

/-- The expansion of a pseudo-command; `DECODE c` is not defined for a number that names no codebook (R79). -/
def Pseudo.expand : Pseudo → Option Instr
  | .decode n => (Codebook.ofNum? n).map decodeCommandOf
  | .decEsc => some (.decEsc .cb11)
  | .decSf => some (.decSf .cb12)

end Sys2Proof
end

