-- ==== Sys2Proof/Machine/Values.lean ====
section
/-! DEFINITION. The value mappers (R130 to R138): pure functions from a symbol index to the value of a codebook's kind, and
the packing of a value into the two result registers (R154). A binary32 value is its 32-bit encoding (R12). -/

namespace Sys2Proof

/-- The default of the parameter `IQUANT_TABLE`: the table of R130, `bits32(iquant(v))` for `v` in `[0, 16]`. -/
def defaultIquantTable : List Word :=
  [0x00000000#32, 0x3F800000#32, 0x40214518#32, 0x408A74BA#32, 0x40CB2FF5#32, 0x4108CC4F#32,
   0x412E718E#32, 0x41563F90#32, 0x41800000#32, 0x4195C41B#32, 0x41AC5AD3#32, 0x41C3B5D3#32,
   0x41DBC8FF#32, 0x41F489EF#32, 0x4206F7CD#32, 0x4213F904#32, 0x42214518#32]

/-- The greatest `r` of at most `k` further bits below `acc` with `r ^ 3 ≤ n`, by bits from the highest. -/
def cubeRootBits (n : Nat) : Nat → Nat → Nat
  | 0, acc => acc
  | k + 1, acc => cubeRootBits n k (if (acc + 2 ^ k) ^ 3 ≤ n then acc + 2 ^ k else acc)

/-- `bits32(round32(v ^ (4/3)))` for every natural `v` (R130): with `b` the exponent of `v ^ (4/3)`, the floor of
`v ^ (4/3) * 2 ^ 24` is rounded to 24 significant bits, to nearest, ties to even (R12). Overflow gives infinity. -/
def round32Pow43 (v : Nat) : Word :=
  if v = 0 then 0#32
  else
    let n := v ^ 4
    let b := n.log2 / 3
    let r := cubeRootBits (n * 2 ^ 72) (b + 25) 0
    let m := r / 2 ^ (b + 1)
    let low := r % 2 ^ (b + 1)
    let exact := r ^ 3 == n * 2 ^ 72
    let up := 2 ^ b < low || (low == 2 ^ b && (!exact || m % 2 == 1))
    if 128 ≤ b then 0x7F800000#32
    else BitVec.ofNat 32 ((b + 126) * 2 ^ 23 + (if up then m + 1 else m))

/-- `bits32(iquant(v))` under the parameter `IQUANT_TABLE` (R8, R130): the table's entry, which covers `[0, 16]`; beyond
the table, which no mapper of a built codebook reaches (R130), the formula of R130. -/
def iquant (table : List Word) (v : Nat) : Word :=
  match table[v]? with
  | some w => w
  | none => round32Pow43 v

/-- `-x` on a binary32 value flips bit 31 only (R12). -/
def negate32 (x : Word) : Word :=
  x ^^^ 0x80000000#32

/-- `sgn_M(a)` (R134), with `half_M = M / 2` (R133). -/
def signedComponent (table : List Word) (m a : Nat) : Word :=
  if m / 2 ≤ a then iquant table (a - m / 2) else negate32 (iquant table (m / 2 - a))

/-- A decoded value, by kind (R22, R26). -/
inductive Value where
  /-- `(u8, u8, u8, u8)`, each in `[0, 2]`. -/
  | quad (q0 q1 q2 q3 : BitVec 8)
  /-- `(f32, f32)`. -/
  | pair (x y : Word)
  /-- `(u16, u16)`, each in `[0, 16]`. -/
  | esc (a b : BitVec 16)
  /-- `u8`, in `[0, 120]`. -/
  | sf (i : BitVec 8)
  deriving DecidableEq, Repr

/-- `quad(i)` (R137). -/
def quadValue (i : Nat) : Value :=
  .quad (BitVec.ofNat 8 (i / 27)) (BitVec.ofNat 8 (i / 9 % 3)) (BitVec.ofNat 8 (i / 3 % 3)) (BitVec.ofNat 8 (i % 3))

/-- `signed_pair_M(cw)` (R134). -/
def signedPair (table : List Word) (m cw : Nat) : Value :=
  .pair (signedComponent table m (cw / m)) (signedComponent table m (cw % m))

/-- `unsigned_pair_M(cw)` (R132). -/
def unsignedPair (table : List Word) (m cw : Nat) : Value :=
  .pair (iquant table (cw / m)) (iquant table (cw % m))

/-- `escape_pair_17(cw)` (R136). -/
def escapeValue (cw : Nat) : Value :=
  .esc (BitVec.ofNat 16 (cw / 17)) (BitVec.ofNat 16 (cw % 17))

/-- The scale-factor delta index itself (R138). -/
def sfValue (i : Nat) : Value :=
  .sf (BitVec.ofNat 8 i)

/-- The pair mapper of a pair codebook: 5 and 6 signed with `M = 9`, 7 and 8 unsigned with `M = 8`, the others unsigned
with `M = 13` (R151, R22). -/
def pairValue (table : List Word) (c : Codebook) (i : Nat) : Value :=
  match c with
  | .cb5 => signedPair table 9 i
  | .cb6 => signedPair table 9 i
  | .cb7 => unsignedPair table 8 i
  | .cb8 => unsignedPair table 8 i
  | _ => unsignedPair table 13 i

/-- `value_c(i)`, the value of symbol `i` of codebook `c` (R22, R138). -/
def valueOf (table : List Word) (c : Codebook) (i : Nat) : Value :=
  match c.kind with
  | .quad => quadValue i
  | .pairSigned => pairValue table c i
  | .pairUnsigned => pairValue table c i
  | .esc => escapeValue i
  | .sf => sfValue i

/-- The packing of a value into `RESULT0` and `RESULT1`: component 0 in the least significant bits (R154). -/
def Value.pack : Value → Word × Word
  | .quad q0 q1 q2 q3 => (q3 ++ q2 ++ q1 ++ q0, 0#32)
  | .pair x y => (x, y)
  | .esc a b => (b ++ a, 0#32)
  | .sf i => (BitVec.zeroExtend 32 i, 0#32)

/-- The packing of DEC.IDX: the symbol index and the codeword's length (R106, R154). -/
def packIndex (i n : Nat) : Word × Word :=
  (BitVec.ofNat 32 i, BitVec.ofNat 32 n)

end Sys2Proof
end

