-- ==== Sys2Proof/Machine/State.lean ====
section
/-! DEFINITION. The state of the block (R20) as plain data, the host's actions (R77, R194), the reasons a step can stop, and
the state after reset (R190). -/

namespace Sys2Proof.Machine

/-- The build state of a codebook (R24). -/
inductive CbState where
  | unbuilt
  | building
  | built
  | fault
  deriving DecidableEq, Repr

/-- The status codes of R170; codes 5 to 15 are never produced, so there is no name for them. -/
inductive Code where
  | ok
  | truncated
  | noCodeword
  | config
  | illegal
  deriving DecidableEq, Repr

/-- The phase of a port (R36): `hold w` while the command word `w` waits for a build. -/
inductive Phase where
  | idle
  | hold (w : Word)
  deriving DecidableEq, Repr

/-- A bit cursor `(S, pos)` (R10, R37): the finite bit sequence, first bit first, and the position. -/
structure Cursor where
  bits : List Bool
  pos : Nat
  deriving DecidableEq, Repr

/-- The state of one port (R27 to R37). `STATUS` is computed from these fields (`Port.statusWord`), its PENDING bit from
the phase (R32); `CMD` holds nothing (R28). -/
structure Port where
  /-- `STATUS.CODE` (R30). -/
  code : Code
  /-- `STATUS.VALID` (R31). -/
  valid : Bool
  /-- `STATUS.CONSUMED` (R33). -/
  consumed : BitVec 5
  /-- `RESULT0` (R34). -/
  result0 : Word
  /-- `RESULT1` (R34). -/
  result1 : Word
  /-- The port phase (R36). -/
  phase : Phase
  /-- The cursor the host has attached, if any (R37, R196). -/
  cursor : Option Cursor
  /-- The MODEL's own: how many cursor draws (R108) the port has made (log 7). -/
  draws : Nat
  deriving DecidableEq, Repr

/-- How a register access names its register: by port and offset within the port's window, as R77 writes it, or by a bus
byte address (R53). -/
inductive RegAddr where
  | window (p off : Nat)
  | bus (addr : Nat)
  deriving DecidableEq, Repr

/-- One action: of the host (R77, R194), of the builder (R102) or of a held port (R107), or a reset (R190). -/
inductive Action where
  /-- A host write of `data` to a register, `width` bits wide. -/
  | write (a : RegAddr) (width : Nat) (data : Word)
  /-- A host read of a register, `width` bits wide. -/
  | read (a : RegAddr) (width : Nat)
  /-- `attach(p, S, pos)` (R196). -/
  | attach (p : Nat) (bits : List Bool) (pos : Nat)
  /-- `attach` of the first `len` bits of a byte array (R52, R196). -/
  | attachBytes (p : Nat) (bytes : List Byte) (len pos : Nat)
  /-- The host moves `pos` of the attached cursor (R196). -/
  | seek (p pos : Nat)
  /-- `BUILDER c`: the builder's step on codebook `c` (R77, R102). -/
  | builder (c : Codebook)
  /-- `p: RELEASE`: the release step of held port `p` (R77, R107). -/
  | release (p : Nat)
  /-- Reset (R190, R191). -/
  | reset
  deriving DecidableEq, Repr

/-- The parameters of R8 that no action changes: the registry (R21), `IQUANT_TABLE` (R130) and `REG_BASE` (R53). The fourth,
`P`, is the length of `State.ports`. -/
structure Params where
  rom : Rom
  iquantTable : List Word
  regBase : Nat
  deriving DecidableEq, Repr

/-- The state of the block (R20) and the model's own fields `cur`, `inputs` and `replies` (log 8). -/
structure State where
  /-- The parameters, the registry among them (R20 (a), R8). -/
  params : Params
  /-- `cbstate[1..12]` (R24); `CB_STATE` is computed from it (R35). -/
  cbstate : PerBook CbState
  /-- Ports `0` to `P - 1` (R38). -/
  ports : List Port
  /-- The MODEL's own: the number of the port whose command `exec` executes. -/
  cur : Nat
  /-- The MODEL's own: the coming actions, the next one first. -/
  inputs : List Action
  /-- The MODEL's own: the words host reads have returned, oldest first. -/
  replies : List Word
  deriving DecidableEq, Repr

/-- Why the machine stops with a fault. -/
inductive Fault where
  /-- A host read of `RESULT0` or `RESULT1` while `STATUS.VALID = 0` (R34, R199): raised by `readRegister`. Safe: the
  hardware would return an unspecified value. -/
  | resultNotValid
  deriving DecidableEq, Repr

/-- Why the model gives no meaning to an action. All are safe: no run of the model takes such a step. -/
inductive Refusal where
  /-- An instruction that has no meaning yet: only in an arm of `exec`. Safe. -/
  | notModelled (mnemonic : String)
  /-- A port number at or above `P` (R54, R183): raised by every action that names a port. Safe. -/
  | noSuchPort
  /-- A `CMD` write while the port is held (R195): raised by `writeCmd` and `issue`. Safe. -/
  | cmdWhileHold
  /-- A cursor attached or moved while the port is held (R196, R63): raised by `changeCursor`. Safe. -/
  | cursorWhileHold
  /-- A cursor position beyond the end of the stream (R196): raised by `changeCursor` and `attachBytes`. Safe. -/
  | positionOutOfRange
  /-- A decode command, or a move of `pos`, on a port with no cursor attached (R196, U7): raised by `issue`,
  `performDecode` and `seek`. Safe. -/
  | noCursor
  /-- An access that is not 32 bits wide (R54): raised by `resolve`. Safe. -/
  | accessWidth
  /-- An access at an offset that is not a multiple of 4 (R54): raised by `resolve`. Safe. -/
  | accessMisaligned
  /-- An access to a reserved offset, `0x14` to `0x1C` (R54): raised by `resolve`. Safe. -/
  | accessReserved
  /-- An access outside every register window (R53, R194): raised by `resolve`. Safe. -/
  | accessOutside
  /-- A turn of the builder on a codebook that is not `BUILDING` (R102): raised by `builderStep`. Safe. -/
  | builderNotEnabled
  /-- A release of a port that is not held, or whose codebook is still to be built (R107): raised by `releaseStep`. Safe. -/
  | releaseNotEnabled
  /-- A release of a held word that is not legal, which no run reaches (R103): raised by `releaseStep`. Safe. -/
  | heldWordIllegal
  /-- A decode over a code table that is not prefix-free, which the model does not admit (R21, U1): raised by
  `performDecode`. Safe. -/
  | romNotPrefixFree
  deriving DecidableEq, Repr

/-- The outcome of a meaning. -/
abbrev Outcome := Host.Outcome State Fault Refusal

/-- A port after reset (R190). `RESULT0` and `RESULT1` are unspecified there: 0 is a DESIGN CHOICE (log 6), which no host
read can see. -/
def Port.reset : Port :=
  { code := .ok, valid := false, consumed := 0#5, result0 := 0#32, result1 := 0#32,
    phase := .idle, cursor := none, draws := 0 }

/-- The machine right after reset (R190), with nothing scheduled. -/
def State.reset : State :=
  { params := { rom := Config.rom.rom, iquantTable := defaultIquantTable, regBase := Config.regBase }
    cbstate := PerBook.replicate .unbuilt
    ports := Port.reset :: List.replicate Config.extraPorts Port.reset
    cur := 0
    inputs := []
    replies := [] }

end Sys2Proof.Machine
end

