-- ==== Sys2Proof/Machine/Flags.lean ====
section
/-! DEFINITION. The status fields (R29 to R33) and the words a host reads: `STATUS` (R29), `CB_STATE` (R35). The one
completion of a command that writes them (R172). -/

namespace Sys2Proof.Machine

/-- The value of a status code (R170). -/
def Code.value : Code → BitVec 4
  | .ok => 0#4
  | .truncated => 1#4
  | .noCodeword => 2#4
  | .config => 3#4
  | .illegal => 4#4

/-- The encoding of a build state (R24). -/
def CbState.value : CbState → BitVec 2
  | .unbuilt => 0#2
  | .building => 1#2
  | .built => 2#2
  | .fault => 3#2

/-- `STATUS.PENDING` (R32): the port is held. -/
def Port.pending (q : Port) : Bool :=
  match q.phase with
  | .idle => false
  | .hold _ => true

/-- The word `STATUS` reads (R29): reserved, CONSUMED, reserved, PENDING, VALID, CODE. -/
def Port.statusWord (q : Port) : Word :=
  0#19 ++ q.consumed ++ 0#2 ++ BitVec.ofBool q.pending ++ BitVec.ofBool q.valid ++ q.code.value

/-- The word `CB_STATE` reads (R35): `cbstate[c]` in bits `[2c+1 : 2c]`, the reserved bits 0. -/
def cbStateWord (v : PerBook CbState) : Word :=
  0#6 ++ v.b12.value ++ v.b11.value ++ v.b10.value ++ v.b9.value ++ v.b8.value ++ v.b7.value ++ v.b6.value ++
    v.b5.value ++ v.b4.value ++ v.b3.value ++ v.b2.value ++ v.b1.value ++ 0#2

/-- `report(code)` (R172) with the VALID and CONSUMED of the completed command (R31, R33): the port is `IDLE` again. -/
def Port.report (q : Port) (code : Code) (valid : Bool) (consumed : Nat) : Port :=
  { q with code := code, valid := valid, consumed := BitVec.ofNat 5 consumed, phase := .idle }

/-- A completion that writes no result: BUILD, ILLEGAL, CONFIG and the status part of a stream error
(R105, R174, R175, R108). -/
def Port.reportNoResult (q : Port) (code : Code) : Port :=
  q.report code false 0

end Sys2Proof.Machine
end

