-- ==== Sys2Proof/Machine/Operands.lean ====
section
/-! DEFINITION. The operands of the commands that lie in the stream (R75, R76): reading the cursor (R10, R51, R52) and the
decode function over a code table (R104). -/

namespace Sys2Proof.Machine

/-- The natural number a bit list spells, the first bit most significant (R10, R51). -/
def bitsToNat (bs : List Bool) : Nat :=
  bs.foldl (fun n b => 2 * n + b.toNat) 0

/-- The `n`-bit binary representation of `v`, most significant bit first (R13). -/
def natToBits (v : Nat) : Nat → List Bool
  | 0 => []
  | n + 1 => (v / 2 ^ n % 2 == 1) :: natToBits v n

/-- The bits of a byte array in stream order: stream bit `k` is bit `7 - k % 8` of byte `k / 8` (R52). -/
def bitsOfBytes : List Byte → List Bool
  | [] => []
  | b :: bs => natToBits b.toNat 8 ++ bitsOfBytes bs

/-- The bits at and after `pos`. -/
def Cursor.tail (cur : Cursor) : List Bool :=
  cur.bits.drop cur.pos

/-- `rem = L - pos` (R10). -/
def Cursor.rem (cur : Cursor) : Nat :=
  cur.bits.length - cur.pos

/-- `CursorPeek(n)` (R10): the next `n` bits as a number; it has no side effect (R55). -/
def Cursor.peek (cur : Cursor) (n : Nat) : Nat :=
  bitsToNat (cur.tail.take n)

/-- `CursorAdvance(n)` (R10). -/
def Cursor.advance (cur : Cursor) (n : Nat) : Cursor :=
  { cur with pos := cur.pos + n }

/-- The codeword is present at the cursor (R13). -/
def present (cur : Cursor) (x : Nat × Nat) : Bool :=
  x.2 ≤ cur.rem && cur.peek x.2 == x.1

/-- The remaining bits are a proper prefix of the codeword (R104). -/
def cutShort (cur : Cursor) (x : Nat × Nat) : Bool :=
  cur.rem < x.2 && cur.peek cur.rem == x.1 / 2 ^ (x.2 - cur.rem)

/-- What the decode function answers (R104): the symbol `i` and the length `n` of its codeword, or one of the two stream
errors. -/
inductive Decoded where
  | matched (i n : Nat)
  | truncated
  | noCodeword
  deriving DecidableEq, Repr

/-- The first symbol, counted from `i`, whose codeword is present, with the codeword's length. -/
def findPresent (cur : Cursor) : Nat → List (Nat × Nat) → Option (Nat × Nat)
  | _, [] => none
  | i, x :: xs => if present cur x then some (i, x.2) else findPresent cur (i + 1) xs

/-- `decodeFn(codes, lens)(S, pos)` (R104). It is pure: it reads the stream and changes nothing. -/
def decodeFn (t : CodeTable) (cur : Cursor) : Decoded :=
  match findPresent cur 0 t.words with
  | some (i, n) => .matched i n
  | none => if t.words.any (cutShort cur) then .truncated else .noCodeword

end Sys2Proof.Machine
end

