-- ==== Sys2Proof/Machine/Ops.lean ====
section
/-! DEFINITION. The named operations of the block: ports and build states, the claim every command goes through (R103), the
decode every decode command shares (R109), the stream error (R108), the builder's step (R102), register reads (R53 to R56),
the host's cursor actions (R196) and reset (R190). The block has no traps (R179): reporting an error in STATUS, which is
what stands in for taking an exception, is `Port.reportNoResult` and `streamError`; there is no return from one (R180). -/

namespace Sys2Proof.Machine

/-- Port `p`, if there is one. -/
def State.port? (s : State) (p : Nat) : Option Port :=
  s.ports[p]?

/-- Port `p` replaced by `q`. -/
def State.setPort (s : State) (p : Nat) (q : Port) : State :=
  { s with ports := s.ports.set p q }

/-- `cbstate[c] <- x`. -/
def State.setCb (s : State) (c : Codebook) (x : CbState) : State :=
  { s with cbstate := s.cbstate.set c x }

/-- `cbstate[c]` (R24). -/
def State.cb (s : State) (c : Codebook) : CbState :=
  s.cbstate.get c

/-- `rom[c]` (R21). -/
def State.romOf (s : State) (c : Codebook) : CodeTable :=
  s.params.rom.get c

/-- The decode table of codebook `c`: absent until it is built, then the codewords of `rom[c]` (R25; log 13). -/
def State.decodeTable? (s : State) (c : Codebook) : Option CodeTable :=
  if s.cb c = .built then some (s.romOf c) else none

/-- The value array of codebook `c`: absent until it is built, then `value_c(i)` for each symbol `i` (R25, R26, R102;
log 13). -/
def State.valueArray? (s : State) (c : Codebook) : Option (List Value) :=
  if s.cb c = .built then some ((List.range c.alphabet).map (valueOf s.params.iquantTable c)) else none

/-- The port enters `HOLD(w)` (R103); nothing else of it changes (R107). -/
def Port.holdOn (q : Port) (w : Word) : Port :=
  { q with phase := .hold w }

/-- The position after a stream error: any position from the old one to the end of the stream (R108), by the free value
`Config.cursorDraw` (log 7). -/
def drawPosition (p k : Nat) (cur : Cursor) : Nat :=
  cur.pos + Config.cursorDraw p k % (cur.rem + 1)

/-- `stream_error(p, E)` (R108). -/
def streamError (p : Nat) (q : Port) (cur : Cursor) (e : Code) : Port :=
  { q.reportNoResult e with
    cursor := some { cur with pos := drawPosition p q.draws cur }
    draws := q.draws + 1 }

/-- A decode that matched: the cursor moves past the codeword, the results are written, and the status is OK, VALID,
CONSUMED = `n` (R106, R109). -/
def decodeDone (q : Port) (cur : Cursor) (n : Nat) (results : Word × Word) : Port :=
  { q.report .ok true n with
    cursor := some (cur.advance n)
    result0 := results.1
    result1 := results.2 }

/-- The port after a decode of the given outcome on port number `p` (R109). -/
def afterDecode (p : Nat) (q : Port) (cur : Cursor) (pack : Nat → Nat → Word × Word) : Decoded → Port
  | .matched i n => decodeDone q cur n (pack i n)
  | .truncated => streamError p q cur .truncated
  | .noCodeword => streamError p q cur .noCodeword

/-- `perform` of a decode command on the built codebook `c` (R109): `pack` gives `RESULT0` and `RESULT1` from the symbol
index and the codeword length. A code table that is not prefix-free is not admitted (R21; log 2). -/
def performDecode (c : Codebook) (pack : Nat → Nat → Word × Word) (s : State) (q : Port) : Outcome :=
  match q.cursor with
  | none => .refused .noCursor
  | some cur =>
    if (s.romOf c).prefixFree then
      .next (s.setPort s.cur (afterDecode s.cur q cur pack (decodeFn (s.romOf c) cur)))
    else .refused .romNotPrefixFree

/-- `perform` of BUILD on a built codebook (R105). -/
def performBuild (s : State) (q : Port) : Outcome :=
  .next (s.setPort s.cur (q.reportNoResult .ok))

/-- `issue(p, w)` for the command `i` on port `s.cur` (R103), with the checks in the order of R178. A command that is not
well formed is an illegal word (R74). A decode command needs a cursor (R196; log 11). `perform` is the command's own
meaning on a built codebook. -/
def issue (i : Instr) (perform : State → Port → Outcome) (s : State) : Outcome :=
  match s.port? s.cur with
  | none => .refused .noSuchPort
  | some q =>
    match q.phase with
    | .hold _ => .refused .cmdWhileHold
    | .idle =>
      if i.wf = false then .next (s.setPort s.cur (q.reportNoResult .illegal))
      else if (i.readsStream && q.cursor.isNone) = true then .refused .noCursor
      else
        match s.cb i.codebook with
        | .unbuilt => .next ((s.setCb i.codebook .building).setPort s.cur (q.holdOn (encode i)))
        | .building => .next (s.setPort s.cur (q.holdOn (encode i)))
        | .built => perform s q
        | .fault => .next (s.setPort s.cur (q.reportNoResult .config))

/-- The builder's step on codebook `c` (R102): the check decides between `BUILT` and `FAULT`. The decode table and the
value array are functions of the parameters and the build state (R25), so they appear in the same step. -/
def builderStep (c : Codebook) (s : State) : Outcome :=
  if s.cb c = .building then
    .next (s.setCb c (if (s.romOf c).check c then .built else .fault))
  else .refused .builderNotEnabled

/-- A register of a port's window (R53). -/
inductive Register where
  | cmd
  | status
  | result0
  | result1
  | cbState
  deriving DecidableEq, Repr

/-- The register at an offset of the window, if it is not reserved (R53). -/
def registerAt? (off : Nat) : Option Register :=
  if off = 0x00 then some .cmd
  else if off = 0x04 then some .status
  else if off = 0x08 then some .result0
  else if off = 0x0C then some .result1
  else if off = 0x10 then some .cbState
  else none

/-- The port and the offset in its window that an address names: port `p`'s window is the 32 bytes at
`REG_BASE + 0x20 * p` (R53). -/
def locate? (regBase : Nat) : RegAddr → Option (Nat × Nat)
  | .window p off => if off < 0x20 then some (p, off) else none
  | .bus addr => if regBase ≤ addr then some ((addr - regBase) / 0x20, (addr - regBase) % 0x20) else none

/-- What a register access means: the port and the register, or the refusal (R54, R194). -/
inductive Access where
  | register (p : Nat) (q : Port) (r : Register)
  | refused (r : Refusal)
  deriving DecidableEq, Repr

/-- The register an access reaches: only a 32-bit access at a multiple of 4, in the window of a port, at an offset that is
not reserved, has a meaning (R53, R54). -/
def resolve (s : State) (a : RegAddr) (width : Nat) : Access :=
  match locate? s.params.regBase a with
  | none => .refused .accessOutside
  | some (p, off) =>
    if width ≠ 32 then .refused .accessWidth
    else if off % 4 ≠ 0 then .refused .accessMisaligned
    else
      match registerAt? off with
      | none => .refused .accessReserved
      | some r =>
        match s.port? p with
        | none => .refused .noSuchPort
        | some q => .register p q r

/-- The word a host read of a register of port `q` returns: `CMD` reads 0 (R28), and a result may be read only while
`VALID = 1` (R34, R199). -/
def readRegister (s : State) (q : Port) : Register → Except Fault Word
  | .cmd => .ok 0#32
  | .status => .ok q.statusWord
  | .result0 => if q.valid then .ok q.result0 else .error .resultNotValid
  | .result1 => if q.valid then .ok q.result1 else .error .resultNotValid
  | .cbState => .ok (cbStateWord s.cbstate)

/-- A host read (R56): it changes nothing of the block; the word goes to the host. -/
def readAccess (a : RegAddr) (width : Nat) (s : State) : Outcome :=
  match resolve s a width with
  | .refused r => .refused r
  | .register _ q r =>
    match readRegister s q r with
    | .error f => .fault f
    | .ok w => .next { s with replies := s.replies ++ [w] }

/-- The host gives port `p` the cursor `(bits, pos)`: allowed while the port is `IDLE` and for `pos ≤ |bits|`
(R196, R63). -/
def changeCursor (p : Nat) (bits : List Bool) (pos : Nat) (s : State) : Outcome :=
  match s.port? p with
  | none => .refused .noSuchPort
  | some q =>
    match q.phase with
    | .hold _ => .refused .cursorWhileHold
    | .idle =>
      if pos ≤ bits.length then .next (s.setPort p { q with cursor := some ⟨bits, pos⟩ })
      else .refused .positionOutOfRange

/-- The host attaches the first `len` bits of a byte array (R52, R196): a stream need not be a whole number of bytes. -/
def attachBytes (p : Nat) (bytes : List Byte) (len pos : Nat) (s : State) : Outcome :=
  if len ≤ 8 * bytes.length then changeCursor p ((bitsOfBytes bytes).take len) pos s
  else .refused .positionOutOfRange

/-- The host moves `pos` of the cursor that port `p` has (R196). -/
def seek (p pos : Nat) (s : State) : Outcome :=
  match s.port? p with
  | none => .refused .noSuchPort
  | some q =>
    match q.cursor with
    | none => .refused .noCursor
    | some cur => changeCursor p cur.bits pos s

/-- A port after a reset event: as `Port.reset`, but the count of its draws goes on (R190; log 12). -/
def Port.afterReset (q : Port) : Port :=
  { Port.reset with draws := q.draws }

/-- Reset (R190, R191): builds are abandoned and held commands discarded; the parameters are not affected, and the model's
own schedule and replies go on. -/
def resetBlock (s : State) : State :=
  { s with cbstate := PerBook.replicate .unbuilt, ports := s.ports.map Port.afterReset, cur := 0 }

end Sys2Proof.Machine
end

