-- ==== Sys2Proof/Machine/Builder.lean ====
section
/-! DEFINITION. The meanings of the commands that reach the builder and the decoder directly: BUILD (R105) and DEC.IDX
(R106). -/

namespace Sys2Proof.Machine

/-- BUILD c (R105). -/
def execBuild (c : Codebook) (s : State) : Outcome :=
  issue (.build c) performBuild s

/-- DEC.IDX c (R106): `RESULT0` is the symbol index and `RESULT1` the codeword's length. -/
def execDecIdx (c : Codebook) (s : State) : Outcome :=
  issue (.decIdx c) (performDecode c packIndex) s

end Sys2Proof.Machine
end

