-- ==== Sys2Proof/Machine/CodebookOps.lean ====
section
/-! DEFINITION. The meanings of the four codebook decode commands (R150 to R153): each maps the symbol index through the
value function of its kind and packs the value into the result registers. -/

namespace Sys2Proof.Machine

/-- DEC.QUAD c (R150). -/
def execDecQuad (c : Codebook) (s : State) : Outcome :=
  issue (.decQuad c) (performDecode c fun i _ => (quadValue i).pack) s

/-- DEC.PAIR c (R151). -/
def execDecPair (c : Codebook) (s : State) : Outcome :=
  issue (.decPair c) (performDecode c fun i _ => (pairValue s.params.iquantTable c i).pack) s

/-- DEC.ESC c (R152). -/
def execDecEsc (c : Codebook) (s : State) : Outcome :=
  issue (.decEsc c) (performDecode c fun i _ => (escapeValue i).pack) s

/-- DEC.SF c (R153). -/
def execDecSf (c : Codebook) (s : State) : Outcome :=
  issue (.decSf c) (performDecode c fun i _ => (sfValue i).pack) s

end Sys2Proof.Machine
end

