-- ==== Sys2Proof/Machine/Dispatch.lean ====
section
/-! DEFINITION. One arm per command: the command's meaning on port `s.cur`. -/

namespace Sys2Proof.Machine

def exec (i : Instr) (s : State) : Host.Outcome State Fault Refusal :=
  match i with
  | .build c => Sys2Proof.Machine.execBuild c s
  | .decIdx c => Sys2Proof.Machine.execDecIdx c s
  | .decQuad c => Sys2Proof.Machine.execDecQuad c s
  | .decPair c => Sys2Proof.Machine.execDecPair c s
  | .decEsc c => Sys2Proof.Machine.execDecEsc c s
  | .decSf c => Sys2Proof.Machine.execDecSf c s

end Sys2Proof.Machine
end

