-- ==== Sys2Proof/Machine/Agents.lean ====
section
/-! DEFINITION. The actions of the schedule: the writes of the host (R194), the release of a held port (R107), and the move
the block makes by itself when nothing is scheduled (R201). -/

namespace Sys2Proof.Machine

/-- A word written to `CMD` of port `p` (R28): refused while the port is held (R195); a legal word is executed, any other
completes with ILLEGAL and changes nothing else (R74, R174). -/
def writeCmd (p : Nat) (w : Word) (s : State) : Outcome :=
  match s.port? p with
  | none => .refused .noSuchPort
  | some q =>
    match q.phase with
    | .hold _ => .refused .cmdWhileHold
    | .idle =>
      match decode w with
      | .ok i => exec i { s with cur := p }
      | .error _ => .next ({ s with cur := p }.setPort p (q.reportNoResult .illegal))

/-- A host write (R56): a write to `CMD` issues a command; writes to the other registers are ignored. -/
def writeAccess (a : RegAddr) (width : Nat) (data : Word) (s : State) : Outcome :=
  match resolve s a width with
  | .refused r => .refused r
  | .register p _ r =>
    match r with
    | .cmd => writeCmd p data s
    | .status => .next s
    | .result0 => .next s
    | .result1 => .next s
    | .cbState => .next s

/-- The build of codebook `c` is over, so a port held for it can be released (R107). -/
def State.buildOver (s : State) (c : Codebook) : Bool :=
  s.cb c == .built || s.cb c == .fault

/-- `release(p)` (R107): the port is `IDLE` again and its held command goes on, which on a codebook that is `BUILT` or
`FAULT` is the same as issuing it (R103). -/
def releaseStep (p : Nat) (s : State) : Outcome :=
  match s.port? p with
  | none => .refused .noSuchPort
  | some q =>
    match q.phase with
    | .idle => .refused .releaseNotEnabled
    | .hold w =>
      match decode w with
      | .error _ => .refused .heldWordIllegal
      | .ok i =>
        if s.buildOver i.codebook then exec i ({ s with cur := p }.setPort p { q with phase := .idle })
        else .refused .releaseNotEnabled

/-- The port is held and its build is over (R107). -/
def releasable (s : State) (q : Port) : Bool :=
  match q.phase with
  | .idle => false
  | .hold w =>
    match decode w with
    | .error _ => false
    | .ok i => s.buildOver i.codebook

/-- The move the block makes when nothing is scheduled: the builder's on the lowest codebook that is `BUILDING`, else the
release of the lowest port that can be released, else none (R201; log 9). -/
def ownMove? (s : State) : Option Action :=
  match Codebook.all.find? fun c => s.cb c == .building with
  | some c => some (.builder c)
  | none => (s.ports.findIdx? (releasable s)).map .release

/-- One action (R77, R194). -/
def act (a : Action) (s : State) : Outcome :=
  match a with
  | .write a width data => writeAccess a width data s
  | .read a width => readAccess a width s
  | .attach p bits pos => changeCursor p bits pos s
  | .attachBytes p bytes len pos => attachBytes p bytes len pos s
  | .seek p pos => seek p pos s
  | .builder c => builderStep c s
  | .release p => releaseStep p s
  | .reset => .next (resetBlock s)

/-- The next scheduled action, or, when nothing is scheduled, the block's own move; with neither the block is at rest. -/
def advance (s : State) : Outcome :=
  match s.inputs with
  | a :: rest => act a { s with inputs := rest }
  | [] =>
    match ownMove? s with
    | some a => act a s
    | none => .next s

/-- The state in which the next scheduled action is a 32-bit write of the table's word to `CMD` of port 0, with port 0 as
that write needs it: `IDLE`, and with a cursor attached (R103, R196; log 15). -/
def placeCommand (s : State) (nbits w : Nat) : State :=
  { s with
    ports := s.ports.modify 0 fun q =>
      { q with phase := .idle, cursor := some (q.cursor.getD { bits := [], pos := 0 }) }
    inputs := .write (.window 0 0x00) 32 (BitVec.ofNat 32 (w % 2 ^ nbits)) :: s.inputs }

end Sys2Proof.Machine
end

