-- ==== Sys2Proof/Machine/Step.lean ====
section
/-! DEFINITION. One step of the block, and the placing of a command that the next step issues. -/

namespace Sys2Proof.Machine

/-- One atomic step: one action of the schedule, or the block's own move (R57, R58). -/
def step (s : State) : Host.Outcome State Fault Refusal :=
  advance s

/-- `s` with the table's word placed so that the very next step issues it on port 0 (log 15). -/
def State.withFetchWord (s : State) (nbits w : Nat) : State :=
  placeCommand s nbits w

end Sys2Proof.Machine
end

