-- ==== Sys2Proof/Safety.lean ====
section
/-! DEFINITION. What claims about runs are stated in: the invariant of the block, the end of a run (R203), the allowed moves
of a build state (R24), and agreement of states on what one port can see (R39). -/

namespace Sys2Proof.Machine

/-- What every port keeps: the position lies in the stream (R37); a valid result came from a completion with OK that
consumed 1 to 19 bits, and any other completion consumed 0 (R31, R33); a held word is a legal command whose codebook has
been claimed, and a held decode has its cursor (R103, R196). -/
structure PortInv (s : State) (q : Port) : Prop where
  position : ∀ cur, q.cursor = some cur → cur.pos ≤ cur.bits.length
  validOk : q.valid = true → q.code = .ok ∧ 1 ≤ q.consumed.toNat ∧ q.consumed.toNat ≤ 19
  notValid : q.valid = false → q.consumed = 0#5
  held : ∀ w, q.phase = .hold w →
    ∃ i, decode w = .ok i ∧ s.cb i.codebook ≠ .unbuilt ∧ (i.readsStream = true → q.cursor.isSome = true)

/-- The invariant of the block: the registry is admissible (R21), a codebook's build state tells what the check of its
table says (R102), and every port keeps `PortInv`. -/
structure State.Inv (s : State) : Prop where
  romOk : ∀ c, (s.romOf c).prefixFree = true
  builtChecked : ∀ c, s.cb c = .built → (s.romOf c).check c = true
  faultUnchecked : ∀ c, s.cb c = .fault → (s.romOf c).check c = false
  ports : ∀ q ∈ s.ports, PortInv s q

/-- The end of a run (R203): the host has no action left, every port is `IDLE` and no codebook is `BUILDING`. -/
def State.finished (s : State) : Bool :=
  s.inputs.isEmpty && s.ports.all (fun q => q.phase == .idle) && Codebook.all.all fun c => s.cb c != .building

/-- The moves of a build state between two resets: none, the claim, and the two publishes (R24). -/
def CbState.mayMove : CbState → CbState → Bool
  | .unbuilt, .unbuilt => true
  | .unbuilt, .building => true
  | .building, .building => true
  | .building, .built => true
  | .building, .fault => true
  | .built, .built => true
  | .fault, .fault => true
  | _, _ => false

/-- Two states agree on all that the port `s.cur` can see: the port's number, the port, the build states and the
parameters (R39). -/
structure SameView (s t : State) : Prop where
  params : s.params = t.params
  cbstate : s.cbstate = t.cbstate
  cur : s.cur = t.cur
  port : s.port? s.cur = t.port? t.cur

/-- What a command that matched symbol `i` with a codeword of `n` bits puts in `RESULT0` and `RESULT1` (R154). BUILD writes
no result (R105), so its entry is never used. -/
def resultsOf (table : List Word) : Instr → Nat → Nat → Word × Word
  | .build _, _, _ => (0#32, 0#32)
  | .decIdx _, i, n => packIndex i n
  | .decQuad _, i, _ => (quadValue i).pack
  | .decPair c, i, _ => (pairValue table c i).pack
  | .decEsc _, i, _ => (escapeValue i).pack
  | .decSf _, i, _ => (sfValue i).pack

/-- The legal words of BUILD, as R78 lists them, with their commands. -/
def legalBuildWords : List (Word × Instr) :=
  [(0x00000011#32, .build .cb1), (0x00000021#32, .build .cb2), (0x00000031#32, .build .cb3),
   (0x00000041#32, .build .cb4), (0x00000051#32, .build .cb5), (0x00000061#32, .build .cb6),
   (0x00000071#32, .build .cb7), (0x00000081#32, .build .cb8), (0x00000091#32, .build .cb9),
   (0x000000A1#32, .build .cb10), (0x000000B1#32, .build .cb11), (0x000000C1#32, .build .cb12)]

/-- The legal words of DEC.IDX, as R78 lists them, with their commands. -/
def legalDecIdxWords : List (Word × Instr) :=
  [(0x00000012#32, .decIdx .cb1), (0x00000022#32, .decIdx .cb2), (0x00000032#32, .decIdx .cb3),
   (0x00000042#32, .decIdx .cb4), (0x00000052#32, .decIdx .cb5), (0x00000062#32, .decIdx .cb6),
   (0x00000072#32, .decIdx .cb7), (0x00000082#32, .decIdx .cb8), (0x00000092#32, .decIdx .cb9),
   (0x000000A2#32, .decIdx .cb10), (0x000000B2#32, .decIdx .cb11), (0x000000C2#32, .decIdx .cb12)]

/-- The legal words of DEC.QUAD, as R78 lists them, with their commands. -/
def legalDecQuadWords : List (Word × Instr) :=
  [(0x00000013#32, .decQuad .cb1), (0x00000023#32, .decQuad .cb2), (0x00000033#32, .decQuad .cb3),
   (0x00000043#32, .decQuad .cb4)]

/-- The legal words of DEC.PAIR, as R78 lists them, with their commands. -/
def legalDecPairWords : List (Word × Instr) :=
  [(0x00000054#32, .decPair .cb5), (0x00000064#32, .decPair .cb6), (0x00000074#32, .decPair .cb7),
   (0x00000084#32, .decPair .cb8), (0x00000094#32, .decPair .cb9), (0x000000A4#32, .decPair .cb10)]

/-- The legal words of DEC.ESC, as R78 lists them, with their commands. -/
def legalDecEscWords : List (Word × Instr) :=
  [(0x000000B5#32, .decEsc .cb11)]

/-- The legal words of DEC.SF, as R78 lists them, with their commands. -/
def legalDecSfWords : List (Word × Instr) :=
  [(0x000000C6#32, .decSf .cb12)]

/-- The table of R78: every legal command word with its command. -/
def legalWordTable : List (Word × Instr) :=
  legalBuildWords ++ legalDecIdxWords ++ legalDecQuadWords ++ legalDecPairWords ++ legalDecEscWords ++ legalDecSfWords

/-- Port `s.cur` can perform a decode command on codebook `c` (R103, R196): it is idle and has a cursor, the codebook is
built, and its table is one the model admits (R21). -/
structure ReadyToDecode (s : State) (c : Codebook) (q : Port) (cur : Cursor) : Prop where
  port : s.port? s.cur = some q
  idle : q.phase = .idle
  cursor : q.cursor = some cur
  position : cur.pos ≤ cur.bits.length
  built : s.cb c = .built
  prefixFree : (s.romOf c).prefixFree = true

/-- The state after port `s.cur`, which was `q`, completed a decode that matched a codeword of `n` bits and gave the two
results: nothing but that port changes (R57, R106, R109). -/
def afterMatch (s : State) (q : Port) (cur : Cursor) (n : Nat) (r0 r1 : Word) : State :=
  s.setPort s.cur
    { q with code := .ok, valid := true, consumed := BitVec.ofNat 5 n, result0 := r0, result1 := r1,
             cursor := some { bits := cur.bits, pos := cur.pos + n } }

/-- The state after port `s.cur`, which was `q`, completed a command that writes no result: BUILD, ILLEGAL or CONFIG
(R105, R174, R175). -/
def afterNoResult (s : State) (q : Port) (e : Code) : State :=
  s.setPort s.cur { q with code := e, valid := false, consumed := 0#5 }

/-- The outcome is a stream error `e` of port `s.cur`, which was `q` (R108): the position is SOME value from the old one to
the end of the stream, and nothing else of the block changes but the status; the port's count of draws, the model's own field,
goes up by one (log 7). -/
def IsStreamError (s : State) (q : Port) (cur : Cursor) (e : Code) (o : Host.Outcome State Fault Refusal) : Prop :=
  ∃ d, cur.pos ≤ d ∧ d ≤ cur.bits.length ∧
    o = .next (s.setPort s.cur
      { q with code := e, valid := false, consumed := 0#5, draws := q.draws + 1,
               cursor := some { bits := cur.bits, pos := d } })

/-- What every decode command's rule says beside its result (R150 to R153): the encoding `w = (c << 4) | OP` of the codebooks
it accepts, that no other word with its OP is legal, and CONFIG on a codebook that is FAULT, with nothing else changed
(R175). -/
structure CommandRule (mk : Codebook → Instr) (accepts : Codebook → Prop) (op : Nat) : Prop where
  encoding : ∀ c, accepts c →
    encode (mk c) = BitVec.ofNat 32 (c.num * 16 + op) ∧ decode (BitVec.ofNat 32 (c.num * 16 + op)) = .ok (mk c)
  illegal : ∀ w : Word, w.toNat % 16 = op → (∀ c, accepts c → w ≠ BitVec.ofNat 32 (c.num * 16 + op)) → legal w = false
  config : ∀ (c : Codebook) (s : State) (q : Port), accepts c → s.port? s.cur = some q → q.phase = .idle →
    q.cursor.isSome = true → s.cb c = .fault → exec (mk c) s = .next (afterNoResult s q .config)

/-- The next state of an outcome, if it is one. -/
def nextState? (o : Host.Outcome State Fault Refusal) : Option State :=
  match o with
  | .next t => some t
  | .fault _ => none
  | .refused _ => none

end Sys2Proof.Machine
end

