-- ==== Sys2Proof/Certificates/Slice0/Obligations.lean ====
section
/-! DEFINITION. The statements about the block for the provers. `exec` acts on port `s.cur`; `s.port? p` is port `p`, if
the block has one. -/

open Sys2Proof Sys2Proof.Machine

/-- Encoding every well-formed command and decoding the word gives the command back (R70, R71, R72, R77). -/
def Obligations.DecodeOfEncodeIsIdentity : Prop :=
  ∀ i : Instr, i.WellFormed → decode (encode i) = .ok i

/-- A word that decodes is the encoding of the command it decodes to, and that command is well formed: no bit of a word is
dropped (R70, R72). -/
def Obligations.EncodeOfDecodeIsIdentity : Prop :=
  ∀ (w : Word) (i : Instr), decode w = .ok i → encode i = w ∧ i.WellFormed

/-- The decoder accepts exactly the words `legal` of R73 accepts, and these are the 36 words of R78. -/
def Obligations.DecodeAcceptsExactlyLegalWords : Prop :=
  (∀ w : Word, legal w = true ↔ ∃ i, decode w = .ok i) ∧
  (∀ w : Word, legal w = true ↔ w ∈ legalWordTable.map Prod.fst) ∧
  (legalWordTable.map Prod.fst).Nodup ∧ legalWordTable.length = 36

/-- The words of R78, written out from the spec's table, decode to the commands the table gives them. -/
def Obligations.ListedWordsDecode : Prop :=
  (∀ x ∈ legalWordTable, decode x.1 = .ok x.2) ∧
  decode 0x00000011#32 = .ok (.build .cb1) ∧ decode 0x000000C2#32 = .ok (.decIdx .cb12) ∧
  decode 0x00000043#32 = .ok (.decQuad .cb4) ∧ decode 0x00000054#32 = .ok (.decPair .cb5) ∧
  decode 0x000000B5#32 = .ok (.decEsc .cb11) ∧ decode 0x000000C6#32 = .ok (.decSf .cb12)

/-- The pseudo-commands of R79. -/
def Obligations.PseudoCommandsExpand : Prop :=
  (∀ c : Codebook, c.num ≤ 4 → (Pseudo.decode c.num).expand = some (.decQuad c)) ∧
  (∀ c : Codebook, 5 ≤ c.num → c.num ≤ 10 → (Pseudo.decode c.num).expand = some (.decPair c)) ∧
  (Pseudo.decode 11).expand = some (.decEsc .cb11) ∧ (Pseudo.decode 12).expand = some (.decSf .cb12) ∧
  (Pseudo.decode 0).expand = none ∧ (∀ n, 13 ≤ n → (Pseudo.decode n).expand = none) ∧
  Pseudo.decEsc.expand = some (.decEsc .cb11) ∧ Pseudo.decSf.expand = some (.decSf .cb12)

/-- The assembler reads back the text of every well-formed command (R77). -/
def Obligations.AssemblyReadsBack : Prop :=
  ∀ i : Instr, i.WellFormed → assemble? i.asm = some i

/-- A STEP RUNS THE DECODED COMMAND: a 32-bit write to the `CMD` offset of an idle port's window, by either form of address,
of a word that decodes to `i`, is `exec i` on that port, with the action taken off the schedule (R28, R53). -/
def Obligations.StepRunsDecodedCommand : Prop :=
  ∀ (s : State) (a : RegAddr) (w : Word) (rest : List Action) (p : Nat) (q : Port) (i : Instr),
    s.inputs = .write a 32 w :: rest → locate? s.params.regBase a = some (p, 0x00) →
    s.port? p = some q → q.phase = .idle → decode w = .ok i →
    step s = exec i { s with inputs := rest, cur := p }

/-- The same for a released port: once the build of the held command's codebook is over, `p: RELEASE` makes the port idle
and executes the held command on it (R107). -/
def Obligations.StepRunsReleasedCommand : Prop :=
  ∀ (s : State) (rest : List Action) (p : Nat) (q : Port) (w : Word) (i : Instr),
    s.inputs = .release p :: rest → s.port? p = some q → q.phase = .hold w → decode w = .ok i →
    (s.cb i.codebook = .built ∨ s.cb i.codebook = .fault) →
    step s = exec i { s with inputs := rest, cur := p, ports := s.ports.set p { q with phase := .idle } }

/-- A release is refused while the codebook is still to be built, and on a port that is not held (R107, R197; that the
model refuses a turn that is not enabled is its own choice, log 10). -/
def Obligations.ReleaseWaitsForTheBuild : Prop :=
  ∀ (s : State) (rest : List Action) (p : Nat) (q : Port),
    s.inputs = .release p :: rest → s.port? p = some q →
    (∀ w i, q.phase = .hold w → decode w = .ok i →
      s.cb i.codebook = .unbuilt ∨ s.cb i.codebook = .building → step s = .refused .releaseNotEnabled) ∧
    (q.phase = .idle → step s = .refused .releaseNotEnabled)

/-- A word that is not legal, written to `CMD` of an idle port, completes at once with ILLEGAL: VALID and CONSUMED are 0 and
nothing else of the block changes, neither the results nor the cursor nor any build state (R74, R174). -/
def Obligations.IllegalWordReportsIllegal : Prop :=
  ∀ (s : State) (a : RegAddr) (w : Word) (rest : List Action) (p : Nat) (q : Port),
    s.inputs = .write a 32 w :: rest → locate? s.params.regBase a = some (p, 0x00) →
    s.port? p = some q → q.phase = .idle → legal w = false →
    step s = .next (afterNoResult { s with inputs := rest, cur := p } q .illegal)

/-- The same for a command term that no legal word spells: its codebook is not of its kind (R72, R174; that `exec` treats
such a term as an illegal word is the model's reading, log 14). -/
def Obligations.IllFormedCommandReportsIllegal : Prop :=
  ∀ (i : Instr) (s : State) (q : Port),
    s.port? s.cur = some q → q.phase = .idle → ¬ i.WellFormed →
    exec i s = .next (afterNoResult s q .illegal)

/-- A write to `CMD` of a held port is refused, whatever the word (R195). -/
def Obligations.CommandWriteWhileHeldIsRefused : Prop :=
  ∀ (s : State) (a : RegAddr) (w v : Word) (rest : List Action) (p : Nat) (q : Port),
    s.inputs = .write a 32 w :: rest → locate? s.params.regBase a = some (p, 0x00) →
    s.port? p = some q → q.phase = .hold v → step s = .refused .cmdWhileHold

/-- A decode command on an idle port with no cursor attached is refused (R196). That it is refused when it is issued, before the
build state is read and so in every build state, where R103 and R175 alone would claim, hold or report CONFIG, is the model's
choice (log 11, DEDUCED). -/
def Obligations.DecodeWithoutCursorIsRefused : Prop :=
  ∀ (i : Instr) (s : State) (q : Port),
    s.port? s.cur = some q → q.phase = .idle → i.WellFormed → i.readsStream = true → q.cursor = none →
    exec i s = .refused .noCursor

/-- The claim, for all six commands (R103): on an UNBUILT codebook the command claims the build and holds, on a BUILDING one
it holds, on a FAULT one it completes with CONFIG (R175), and on a BUILT one it performs: BUILD completes with OK, a decode
command takes the outcome of the decode function. A decode command needs a cursor (R196). A held port takes no command
(R195). That `exec` answers a term that no legal word spells with ILLEGAL (R174), in every build state, is the model's choice
(log 14, DEDUCED). -/
def Obligations.ClaimFollowsBuildState : Prop :=
  ∀ (i : Instr) (s : State) (q : Port), s.port? s.cur = some q →
    (∀ w, q.phase = .hold w → exec i s = .refused .cmdWhileHold) ∧
    (q.phase = .idle → ¬ i.WellFormed → exec i s = .next (afterNoResult s q .illegal)) ∧
    (q.phase = .idle → i.WellFormed → (i.readsStream = true → q.cursor.isSome = true) →
      (s.cb i.codebook = .unbuilt →
        exec i s = .next { s with cbstate := s.cbstate.set i.codebook .building,
                                  ports := s.ports.set s.cur { q with phase := .hold (encode i) } }) ∧
      (s.cb i.codebook = .building →
        exec i s = .next { s with ports := s.ports.set s.cur { q with phase := .hold (encode i) } }) ∧
      (s.cb i.codebook = .fault → exec i s = .next (afterNoResult s q .config)) ∧
      (s.cb i.codebook = .built → i.readsStream = false → exec i s = .next (afterNoResult s q .ok)) ∧
      (∀ cur, s.cb i.codebook = .built → i.readsStream = true → q.cursor = some cur →
        (s.romOf i.codebook).prefixFree = true →
        exec i s = .next (s.setPort s.cur (afterDecode s.cur q cur (resultsOf s.params.iquantTable i)
          (decodeFn (s.romOf i.codebook) cur)))))

/-- BUILD (R105) on a built codebook completes at once with OK: VALID and CONSUMED are 0, the results, the cursor and every
build state are unchanged. -/
def Obligations.BuildOnBuiltCompletes : Prop :=
  ∀ (c : Codebook) (s : State) (q : Port),
    s.port? s.cur = some q → q.phase = .idle → s.cb c = .built →
    exec (.build c) s =
      .next { s with ports := s.ports.set s.cur { q with code := .ok, valid := false, consumed := 0#5 } }

/-- DEC.IDX (R106): a match gives RESULT0 = the symbol index and RESULT1 = the length, advances the position by the length,
and sets OK, VALID, CONSUMED; the two other outcomes are stream errors. Nothing else changes. -/
def Obligations.DecIdxCompletes : Prop :=
  ∀ (c : Codebook) (s : State) (q : Port) (cur : Cursor), ReadyToDecode s c q cur →
    (∀ i n, decodeFn (s.romOf c) cur = .matched i n →
      exec (.decIdx c) s = .next (afterMatch s q cur n (BitVec.ofNat 32 i) (BitVec.ofNat 32 n))) ∧
    (decodeFn (s.romOf c) cur = .truncated → IsStreamError s q cur .truncated (exec (.decIdx c) s)) ∧
    (decodeFn (s.romOf c) cur = .noCodeword → IsStreamError s q cur .noCodeword (exec (.decIdx c) s))

/-- DEC.QUAD (R150), on codebooks 1 to 4 and with CONFIG and ILLEGAL otherwise: a match of symbol `i` gives RESULT0 =
the four base-3 digits of `i`, the first component in bits [7:0], and RESULT1 = 0. -/
def Obligations.DecQuadCompletes : Prop :=
  CommandRule .decQuad (fun c => c.num ≤ 4) 0x3 ∧
  (∀ (c : Codebook) (s : State) (q : Port) (cur : Cursor), c.num ≤ 4 → ReadyToDecode s c q cur →
      (∀ i n, decodeFn (s.romOf c) cur = .matched i n →
        exec (.decQuad c) s = .next (afterMatch s q cur n
          (BitVec.ofNat 8 (i % 3) ++ BitVec.ofNat 8 (i / 3 % 3) ++ BitVec.ofNat 8 (i / 9 % 3) ++ BitVec.ofNat 8 (i / 27))
          0#32)) ∧
      (decodeFn (s.romOf c) cur = .truncated → IsStreamError s q cur .truncated (exec (.decQuad c) s)) ∧
      (decodeFn (s.romOf c) cur = .noCodeword → IsStreamError s q cur .noCodeword (exec (.decQuad c) s)))

/-- DEC.PAIR (R151), on codebooks 5 to 10 and with CONFIG and ILLEGAL otherwise: a match of symbol `i` gives the two
binary32 words of the pair mapper of the codebook, signed with `M = 9` for 5 and 6, unsigned with `M = 8` for 7 and 8
and with `M = 13` for 9 and 10, under the parameter `IQUANT_TABLE`. -/
def Obligations.DecPairCompletes : Prop :=
  CommandRule .decPair (fun c => 5 ≤ c.num ∧ c.num ≤ 10) 0x4 ∧
  (∀ (c : Codebook) (s : State) (q : Port) (cur : Cursor), 5 ≤ c.num → c.num ≤ 10 → ReadyToDecode s c q cur →
      (∀ i n, decodeFn (s.romOf c) cur = .matched i n →
        exec (.decPair c) s = .next (
          if c.num ≤ 6 then
            afterMatch s q cur n (signedComponent s.params.iquantTable 9 (i / 9))
              (signedComponent s.params.iquantTable 9 (i % 9))
          else if c.num ≤ 8 then
            afterMatch s q cur n (iquant s.params.iquantTable (i / 8)) (iquant s.params.iquantTable (i % 8))
          else
            afterMatch s q cur n (iquant s.params.iquantTable (i / 13)) (iquant s.params.iquantTable (i % 13)))) ∧
      (decodeFn (s.romOf c) cur = .truncated → IsStreamError s q cur .truncated (exec (.decPair c) s)) ∧
      (decodeFn (s.romOf c) cur = .noCodeword → IsStreamError s q cur .noCodeword (exec (.decPair c) s)))

/-- DEC.ESC (R152), on codebook 11 and with CONFIG and ILLEGAL otherwise: a match of symbol `i` of codebook 11 gives
RESULT0 = `i / 17` in [15:0] and `i % 17` in [31:16], and RESULT1 = 0. -/
def Obligations.DecEscCompletes : Prop :=
  CommandRule .decEsc (fun c => c = .cb11) 0x5 ∧
  (∀ (s : State) (q : Port) (cur : Cursor), ReadyToDecode s .cb11 q cur →
      (∀ i n, decodeFn (s.romOf .cb11) cur = .matched i n →
        exec (.decEsc .cb11) s =
          .next (afterMatch s q cur n (BitVec.ofNat 16 (i % 17) ++ BitVec.ofNat 16 (i / 17)) 0#32)) ∧
      (decodeFn (s.romOf .cb11) cur = .truncated → IsStreamError s q cur .truncated (exec (.decEsc .cb11) s)) ∧
      (decodeFn (s.romOf .cb11) cur = .noCodeword → IsStreamError s q cur .noCodeword (exec (.decEsc .cb11) s)))

/-- DEC.SF (R153), on codebook 12 and with CONFIG and ILLEGAL otherwise: a match of symbol `i` of codebook 12 gives
RESULT0 = `i`, with no offset subtracted, for `i` in its alphabet, and RESULT1 = 0. -/
def Obligations.DecSfCompletes : Prop :=
  CommandRule .decSf (fun c => c = .cb12) 0x6 ∧
  (∀ (s : State) (q : Port) (cur : Cursor), ReadyToDecode s .cb12 q cur →
      (∀ i n, decodeFn (s.romOf .cb12) cur = .matched i n → i ≤ 120 →
        exec (.decSf .cb12) s = .next (afterMatch s q cur n (BitVec.ofNat 32 i) 0#32)) ∧
      (decodeFn (s.romOf .cb12) cur = .truncated → IsStreamError s q cur .truncated (exec (.decSf .cb12) s)) ∧
      (decodeFn (s.romOf .cb12) cur = .noCodeword → IsStreamError s q cur .noCodeword (exec (.decSf .cb12) s)))

/-- A stream error (R108) leaves every other port, every build state and the parameters as they were, keeps RESULT0 and
RESULT1, makes the port idle with VALID = 0 and CONSUMED = 0, and puts the position SOMEWHERE from the old one to the end
of the stream: for each of the five decode commands. -/
def Obligations.StreamErrorIsRecoverable : Prop :=
  ∀ (i : Instr) (s : State) (q : Port) (cur : Cursor) (e : Code),
    i.WellFormed → i.readsStream = true → ReadyToDecode s i.codebook q cur →
    ((decodeFn (s.romOf i.codebook) cur = .truncated ∧ e = .truncated) ∨
      (decodeFn (s.romOf i.codebook) cur = .noCodeword ∧ e = .noCodeword)) →
    ∃ t q' d, exec i s = .next t ∧ t.port? s.cur = some q' ∧
      q'.code = e ∧ q'.valid = false ∧ q'.consumed = 0#5 ∧ q'.phase = .idle ∧
      q'.result0 = q.result0 ∧ q'.result1 = q.result1 ∧
      q'.cursor = some { bits := cur.bits, pos := d } ∧ cur.pos ≤ d ∧ d ≤ cur.bits.length ∧
      t.cbstate = s.cbstate ∧ t.params = s.params ∧ t.ports.length = s.ports.length ∧
      ∀ r, r ≠ s.cur → t.port? r = s.port? r

/-- The model admits only prefix-free tables (R21): a decode command on a built codebook whose table is not prefix-free is
refused, where the spec says the behaviour is undefined. That the refusal stands at the decode is the model's choice
(log 2). -/
def Obligations.NotPrefixFreeTableIsRefused : Prop :=
  ∀ (i : Instr) (s : State) (q : Port) (cur : Cursor),
    s.port? s.cur = some q → q.phase = .idle → q.cursor = some cur → i.WellFormed → i.readsStream = true →
    s.cb i.codebook = .built → (s.romOf i.codebook).prefixFree = false →
    exec i s = .refused .romNotPrefixFree

/-- The decode function (R104). A codeword present at the cursor is found, with its symbol index and its length; else, if
the remaining bits are a proper prefix of a codeword, the outcome is TRUNCATED; else it is NO_CODEWORD. On a table that
passed the check it depends only on the next `min(rem, 19)` bits. -/
def Obligations.DecodeFunctionCases : Prop :=
  (∀ (t : CodeTable) (cur : Cursor),
    ((∃ x ∈ t.words, x.2 ≤ cur.rem ∧ cur.peek x.2 = x.1) →
      ∃ i x, t.words[i]? = some x ∧ x.2 ≤ cur.rem ∧ cur.peek x.2 = x.1 ∧ decodeFn t cur = .matched i x.2) ∧
    ((¬ ∃ x ∈ t.words, x.2 ≤ cur.rem ∧ cur.peek x.2 = x.1) →
      (∃ x ∈ t.words, cur.rem < x.2 ∧ cur.peek cur.rem = x.1 / 2 ^ (x.2 - cur.rem)) →
      decodeFn t cur = .truncated) ∧
    ((¬ ∃ x ∈ t.words, x.2 ≤ cur.rem ∧ cur.peek x.2 = x.1) →
      (¬ ∃ x ∈ t.words, cur.rem < x.2 ∧ cur.peek cur.rem = x.1 / 2 ^ (x.2 - cur.rem)) →
      decodeFn t cur = .noCodeword)) ∧
  (∀ (c : Codebook) (t : CodeTable) (cur cur' : Cursor), t.check c = true →
    cur.tail.take 19 = cur'.tail.take 19 → decodeFn t cur = decodeFn t cur')

/-- On a prefix-free table the matched symbol is the only one whose codeword is present (R110, which the spec derives from
R14 and R104). -/
def Obligations.MatchedSymbolIsUnique : Prop :=
  ∀ (t : CodeTable) (cur : Cursor) (i n : Nat), t.prefixFree = true → decodeFn t cur = .matched i n →
    ∃ x, t.words[i]? = some x ∧ n = x.2 ∧
      ∀ (j : Nat) (y : Nat × Nat), t.words[j]? = some y → y.2 ≤ cur.rem → cur.peek y.2 = y.1 → j = i

/-- On a table that passed the check a match is a symbol of the alphabet and consumes 1 to 19 bits that are all in the
stream; so CONSUMED holds the length itself (R112 and R110, which the spec derives). -/
def Obligations.MatchedLengthIsBounded : Prop :=
  ∀ (c : Codebook) (t : CodeTable) (cur : Cursor) (i n : Nat), t.check c = true → decodeFn t cur = .matched i n →
    i < c.alphabet ∧ 1 ≤ n ∧ n ≤ 19 ∧ n ≤ cur.rem ∧ (BitVec.ofNat 5 n).toNat = n

/-- Exact round trip (R111, which the spec derives): the bits of a codeword, whatever follows them, decode to its symbol. -/
def Obligations.CodewordRoundTrip : Prop :=
  ∀ (c : Codebook) (t : CodeTable) (i code len : Nat) (rest : List Bool),
    t.check c = true → t.prefixFree = true → t.codes[i]? = some code → t.lens[i]? = some len →
    decodeFn t { bits := natToBits code len ++ rest, pos := 0 } = .matched i len

/-- With no bit left every decode over a table that passed the check is TRUNCATED (R112, which the spec derives). -/
def Obligations.EmptyStreamIsTruncated : Prop :=
  ∀ (c : Codebook) (t : CodeTable) (cur : Cursor), t.check c = true → cur.rem = 0 → decodeFn t cur = .truncated

/-- `CursorPeek(n)` is the sum R10 writes: the next `n` bits, most significant first; advancing adds to the position. -/
def Obligations.PeekIsMostSignificantFirst : Prop :=
  (∀ (cur : Cursor) (n : Nat), n ≤ cur.rem →
    cur.peek n = ((List.range n).map fun k => (cur.bits.getD (cur.pos + k) false).toNat * 2 ^ (n - 1 - k)).sum) ∧
  (∀ (cur : Cursor) (n : Nat), (cur.advance n).bits = cur.bits ∧ (cur.advance n).pos = cur.pos + n)

/-- Bytes to stream bits (R52): stream bit `k` is bit `7 - k % 8` of byte `k / 8`. And attaching the first `len` bits of a byte
array attaches exactly those bits, for any `len` the array holds: the action `attachBytes` is the model's own (log 19,
DEDUCED), with the effect of R196. -/
def Obligations.StreamBitsOfBytes : Prop :=
  (∀ bytes : List Byte, (bitsOfBytes bytes).length = 8 * bytes.length) ∧
  (∀ (bytes : List Byte) (k : Nat) (b : Byte), bytes[k / 8]? = some b →
    (bitsOfBytes bytes)[k]? = some (b.getLsbD (7 - k % 8))) ∧
  (∀ (s : State) (rest : List Action) (p len pos : Nat) (bytes : List Byte) (q : Port),
    s.inputs = .attachBytes p bytes len pos :: rest → s.port? p = some q → q.phase = .idle →
    len ≤ 8 * bytes.length → pos ≤ len →
    step s = .next ({ s with inputs := rest }.setPort p
      { q with cursor := some { bits := (bitsOfBytes bytes).take len, pos := pos } }))

/-- The default `IQUANT_TABLE` holds the correctly rounded `v ^ (4/3)` (R130): with `m` the 24-bit significand and `e` the
exponent field of the entry of `v` in `[1, 16]`, `v ^ (4/3)` lies strictly within half a unit in the last place of the
entry, cubed and cleared of denominators; the entry of 0 is `+0.0`. Every entry is the formula's value. -/
def Obligations.IquantTableIsCorrectlyRounded : Prop :=
  iquant defaultIquantTable 0 = 0x00000000#32 ∧
  (∀ v : Fin 17, 1 ≤ v.val →
    let w := (iquant defaultIquantTable v.val).toNat
    let e := w / 2 ^ 23
    let m := 2 ^ 23 + w % 2 ^ 23
    e < 255 ∧ (2 * m - 1) ^ 3 * 2 ^ (3 * e) < v.val ^ 4 * 2 ^ 453 ∧ v.val ^ 4 * 2 ^ 453 < (2 * m + 1) ^ 3 * 2 ^ (3 * e)) ∧
  (∀ v : Fin 17, iquant defaultIquantTable v.val = round32Pow43 v.val) ∧ defaultIquantTable.length = 17

/-- The exact points and the order of the default table (R131, which the spec derives from the table of R130). -/
def Obligations.IquantExactPointsAndOrder : Prop :=
  iquant defaultIquantTable 0 = 0x00000000#32 ∧ iquant defaultIquantTable 1 = 0x3F800000#32 ∧
  iquant defaultIquantTable 8 = 0x41800000#32 ∧
  (∀ v : Fin 16, (iquant defaultIquantTable v.val).toNat < (iquant defaultIquantTable (v.val + 1)).toNat) ∧
  (∀ v : Fin 17, (iquant defaultIquantTable v.val).toNat < 0x7F800000)

/-- `signed_pair_M` (R134) and `unsigned_pair_M` (R132) under every table, as value functions of the pair codebooks (R138):
the first component comes from the quotient, and the signed ones fold around `half = M / 2` (R133). -/
def Obligations.PairMappersFollowTheirRules : Prop :=
  (∀ (table : List Word) (m a : Nat),
    (m / 2 ≤ a → signedComponent table m a = iquant table (a - m / 2)) ∧
    (a < m / 2 → signedComponent table m a = iquant table (m / 2 - a) ^^^ 0x80000000#32)) ∧
  (∀ (table : List Word) (c : Codebook) (i : Nat), c = .cb5 ∨ c = .cb6 →
    valueOf table c i = .pair (signedComponent table 9 (i / 9)) (signedComponent table 9 (i % 9))) ∧
  (∀ (table : List Word) (c : Codebook) (i : Nat), c = .cb7 ∨ c = .cb8 →
    valueOf table c i = .pair (iquant table (i / 8)) (iquant table (i % 8))) ∧
  (∀ (table : List Word) (c : Codebook) (i : Nat), c = .cb9 ∨ c = .cb10 →
    valueOf table c i = .pair (iquant table (i / 13)) (iquant table (i % 13)))

/-- The components of `signed_pair_9` under the default table (R135, which the spec derives): the midpoint is `+0.0` and
the fold is symmetric. -/
def Obligations.SignedComponentsOfNine : Prop :=
  (List.range 9).map (signedComponent defaultIquantTable 9) =
    [0xC0CB2FF5#32, 0xC08A74BA#32, 0xC0214518#32, 0xBF800000#32, 0x00000000#32,
     0x3F800000#32, 0x40214518#32, 0x408A74BA#32, 0x40CB2FF5#32]

/-- The escape mapper (R136): both components are in `[0, 16]`, with no inverse quantization and no sign. -/
def Obligations.EscapePairSplitsBySeventeen : Prop :=
  ∀ (table : List Word) (cw : Nat), cw < 289 →
    ∃ a b : Nat, a ≤ 16 ∧ b ≤ 16 ∧ cw = 17 * a + b ∧
      valueOf table .cb11 cw = .esc (BitVec.ofNat 16 a) (BitVec.ofNat 16 b)

/-- The quad table (R137): the `i`-th 4-tuple over {0, 1, 2} in lexicographic order, for every quad codebook. -/
def Obligations.QuadsAreTheLexicographicEnumeration : Prop :=
  ∀ (table : List Word) (c : Codebook) (i : Nat), c.kind = .quad → i < 81 →
    ∃ a b d e : Nat, a ≤ 2 ∧ b ≤ 2 ∧ d ≤ 2 ∧ e ≤ 2 ∧ i = 27 * a + 9 * b + 3 * d + e ∧
      valueOf table c i = .quad (BitVec.ofNat 8 a) (BitVec.ofNat 8 b) (BitVec.ofNat 8 d) (BitVec.ofNat 8 e)

/-- The alphabets of R22: 81, 64, 169, 289 and 121 symbols, with `N = M * M` where the codebook has a modulus (R23). -/
def Obligations.AlphabetSizes : Prop :=
  (Codebook.all.map Codebook.alphabet = [81, 81, 81, 81, 81, 81, 64, 64, 169, 169, 289, 121]) ∧
  (∀ (c : Codebook) (m : Nat), c.modulus? = some m → c.alphabet = m * m) ∧
  (∀ c : Codebook, c.modulus? = none ↔ c.kind = .quad ∨ c.kind = .sf) ∧
  (∀ c : Codebook, c ∈ Codebook.all ∧ Codebook.ofNum? c.num = some c ∧ 1 ≤ c.num ∧ c.num ≤ 12)

/-- The machine after reset (R190): every codebook UNBUILT with no decode table and no value array, CB_STATE 0, and at least
one port, every port idle with STATUS 0 and no cursor. Nothing is said of RESULT0 and RESULT1. -/
def Obligations.StateAfterReset : Prop :=
  (∀ c, State.reset.cb c = .unbuilt ∧ State.reset.decodeTable? c = none ∧ State.reset.valueArray? c = none) ∧
  cbStateWord State.reset.cbstate = 0#32 ∧ 1 ≤ State.reset.ports.length ∧
  (∀ q ∈ State.reset.ports, q.phase = .idle ∧ q.statusWord = 0#32 ∧ q.cursor = none)

/-- A reset (R191) always happens, abandons every build and discards every held command; the parameters, the registry among
them, and the number of ports stay. That it detaches the cursors is the model's reading of R190 (log 12). -/
def Obligations.ResetAbandonsBuildsAndHolds : Prop :=
  ∀ (s : State) (rest : List Action), s.inputs = .reset :: rest →
    ∃ t, step s = .next t ∧ t.params = s.params ∧ t.ports.length = s.ports.length ∧ t.inputs = rest ∧
      t.replies = s.replies ∧ (∀ c, t.cb c = .unbuilt) ∧
      (∀ q ∈ t.ports, q.phase = .idle ∧ q.statusWord = 0#32 ∧ q.cursor = none)

/-- The layout of STATUS (R29) with PENDING = 1 exactly in HOLD (R32) and the code values of R170. -/
def Obligations.StatusWordLayout : Prop :=
  ∀ q : Port,
    q.statusWord.extractLsb' 0 4 =
      (match q.code with
       | .ok => 0#4
       | .truncated => 1#4
       | .noCodeword => 2#4
       | .config => 3#4
       | .illegal => 4#4) ∧
    q.statusWord.getLsbD 4 = q.valid ∧
    (q.statusWord.getLsbD 5 = true ↔ ∃ w, q.phase = .hold w) ∧
    q.statusWord.extractLsb' 6 2 = 0#2 ∧ q.statusWord.extractLsb' 8 5 = q.consumed ∧
    q.statusWord.extractLsb' 13 19 = 0#19

/-- CB_STATE (R35): bits `[2c+1 : 2c]` hold `cbstate[c]` in the encoding of R24 and the reserved bits are 0; every port reads
the one word, writes are ignored, and after reset it is 0. -/
def Obligations.CbStateWordLayout : Prop :=
  (∀ v : PerBook CbState,
    (∀ c : Codebook, (cbStateWord v).extractLsb' (2 * c.num) 2 =
      (match v.get c with
       | .unbuilt => 0#2
       | .building => 1#2
       | .built => 2#2
       | .fault => 3#2)) ∧
    (cbStateWord v).extractLsb' 0 2 = 0#2 ∧ (cbStateWord v).extractLsb' 26 6 = 0#6) ∧
  (∀ (s : State) (a : RegAddr) (rest : List Action) (p : Nat) (q : Port),
    locate? s.params.regBase a = some (p, 0x10) → s.port? p = some q →
    (s.inputs = .read a 32 :: rest →
      step s = .next { s with inputs := rest, replies := s.replies ++ [cbStateWord s.cbstate] }) ∧
    (∀ w, s.inputs = .write a 32 w :: rest → step s = .next { s with inputs := rest })) ∧
  cbStateWord State.reset.cbstate = 0x00000000#32

/-- Port `p`'s window is the 32 bytes at `REG_BASE + 0x20 * p` (R53), for any `REG_BASE`, and no address below `REG_BASE` is
in a window. -/
def Obligations.WindowsAreThirtyTwoBytesApart : Prop :=
  (∀ base p off : Nat, off < 0x20 →
    locate? base (.bus (base + 0x20 * p + off)) = some (p, off) ∧ locate? base (.window p off) = some (p, off)) ∧
  (∀ base addr : Nat, addr < base → locate? base (.bus addr) = none)

/-- Reads (R56, R28, R29, R34, R35): a 32-bit read of a port's register returns its word to the host and changes nothing of
the block: CMD reads 0, RESULT0 and RESULT1 are read while VALID = 1. -/
def Obligations.ReadsReturnRegisters : Prop :=
  ∀ (s : State) (a : RegAddr) (rest : List Action) (p off : Nat) (q : Port),
    s.inputs = .read a 32 :: rest → locate? s.params.regBase a = some (p, off) → s.port? p = some q →
    (off = 0x00 → step s = .next { s with inputs := rest, replies := s.replies ++ [0x00000000#32] }) ∧
    (off = 0x04 → step s = .next { s with inputs := rest, replies := s.replies ++ [q.statusWord] }) ∧
    (off = 0x08 → q.valid = true → step s = .next { s with inputs := rest, replies := s.replies ++ [q.result0] }) ∧
    (off = 0x0C → q.valid = true → step s = .next { s with inputs := rest, replies := s.replies ++ [q.result1] }) ∧
    (off = 0x10 → step s = .next { s with inputs := rest, replies := s.replies ++ [cbStateWord s.cbstate] })

/-- A read of RESULT0 or RESULT1 while VALID = 0 faults (R34, R199). -/
def Obligations.ResultReadWithoutValidFaults : Prop :=
  ∀ (s : State) (a : RegAddr) (rest : List Action) (p off : Nat) (q : Port),
    s.inputs = .read a 32 :: rest → locate? s.params.regBase a = some (p, off) → s.port? p = some q →
    (off = 0x08 ∨ off = 0x0C) → q.valid = false → step s = .fault .resultNotValid

/-- Writes to STATUS, RESULT0, RESULT1 and CB_STATE are ignored (R56), in every phase of the port. -/
def Obligations.WritesToReadOnlyRegistersAreIgnored : Prop :=
  ∀ (s : State) (a : RegAddr) (w : Word) (rest : List Action) (p off : Nat) (q : Port),
    s.inputs = .write a 32 w :: rest → locate? s.params.regBase a = some (p, off) → s.port? p = some q →
    (off = 0x04 ∨ off = 0x08 ∨ off = 0x0C ∨ off = 0x10) → step s = .next { s with inputs := rest }

/-- An access that is not 32 bits wide, is not at a multiple of 4, or is at a reserved offset is refused (R54), whether it
reads or writes; which refusal is named when several apply is the model's choice (log 18). -/
def Obligations.BadAccessesAreRefused : Prop :=
  ∀ (s : State) (a : RegAddr) (w : Word) (rest : List Action) (p off width : Nat),
    (s.inputs = .write a width w :: rest ∨ s.inputs = .read a width :: rest) →
    locate? s.params.regBase a = some (p, off) →
    (width ≠ 32 ∨ off % 4 ≠ 0 ∨ off = 0x14 ∨ off = 0x18 ∨ off = 0x1C) → ∃ r, step s = .refused r

/-- Attaching a cursor (R196): on an idle port, for a position in the stream, it sets `(S, pos)` and nothing else; moving the
position keeps the stream. A held port's cursor may not be touched (R63), and a position beyond the end is refused. -/
def Obligations.CursorActionsFollowTheirRules : Prop :=
  ∀ (s : State) (rest : List Action) (p pos : Nat) (bits : List Bool) (q : Port), s.port? p = some q →
    (s.inputs = .attach p bits pos :: rest →
      (q.phase = .idle → pos ≤ bits.length →
        step s = .next ({ s with inputs := rest }.setPort p { q with cursor := some { bits := bits, pos := pos } })) ∧
      (q.phase = .idle → bits.length < pos → step s = .refused .positionOutOfRange) ∧
      (∀ w, q.phase = .hold w → step s = .refused .cursorWhileHold)) ∧
    (∀ cur, s.inputs = .seek p pos :: rest → q.cursor = some cur →
      (q.phase = .idle → pos ≤ cur.bits.length →
        step s = .next ({ s with inputs := rest }.setPort p
          { q with cursor := some { bits := cur.bits, pos := pos } })) ∧
      (q.phase = .idle → cur.bits.length < pos → step s = .refused .positionOutOfRange) ∧
      (∀ w, q.phase = .hold w → step s = .refused .cursorWhileHold))

/-- The builder's step (R102): on a BUILDING codebook it publishes BUILT, with the decode table and the value array, when the
check of R101 holds, and FAULT otherwise; it writes no port and no other codebook. On any other codebook it has no step: that
the model refuses such a turn by name is its own choice (log 10, DESIGN CHOICE). -/
def Obligations.BuilderPublishesOnce : Prop :=
  ∀ (s : State) (rest : List Action) (c : Codebook), s.inputs = .builder c :: rest →
    (s.cb c = .building → (s.romOf c).codes.length = c.alphabet → (s.romOf c).lens.length = c.alphabet →
      (∀ x ∈ (s.romOf c).words, 1 ≤ x.2 ∧ x.2 ≤ 19 ∧ x.1 < 2 ^ x.2) →
      ∃ t, step s = .next t ∧ t = { s with inputs := rest, cbstate := s.cbstate.set c .built } ∧
        t.decodeTable? c = some (s.romOf c) ∧
        t.valueArray? c = some ((List.range c.alphabet).map (valueOf s.params.iquantTable c))) ∧
    (s.cb c = .building →
      ¬((s.romOf c).codes.length = c.alphabet ∧ (s.romOf c).lens.length = c.alphabet ∧
        ∀ x ∈ (s.romOf c).words, 1 ≤ x.2 ∧ x.2 ≤ 19 ∧ x.1 < 2 ^ x.2) →
      step s = .next { s with inputs := rest, cbstate := s.cbstate.set c .fault }) ∧
    (s.cb c ≠ .building → step s = .refused .builderNotEnabled)

/-- FRAME of all six commands: every other port, the parameters, the number of ports, the schedule and the replies are
unchanged, and so is every build state, but for the named codebook's claim UNBUILT to BUILDING (R38, R39, R173). -/
def Obligations.CommandFrame : Prop :=
  ∀ (i : Instr) (s t : State), exec i s = .next t →
    (∀ r, r ≠ s.cur → t.port? r = s.port? r) ∧ t.ports.length = s.ports.length ∧ t.params = s.params ∧
    t.cur = s.cur ∧ t.inputs = s.inputs ∧ t.replies = s.replies ∧
    (∀ c, t.cb c = s.cb c ∨ (c = i.codebook ∧ i.WellFormed ∧ s.cb c = .unbuilt ∧ t.cb c = .building))

/-- FRAME of the issuing port, for all six commands: the stream is never written and the position never decreases and stays
in the stream (R37, R55); BUILD, ILLEGAL, CONFIG and a hold leave the cursor alone. -/
def Obligations.CommandMovesCursorForward : Prop :=
  ∀ (i : Instr) (s t : State) (q q' : Port), exec i s = .next t → s.port? s.cur = some q → t.port? s.cur = some q' →
    (q.cursor = none → q'.cursor = none) ∧
    (∀ cur, q.cursor = some cur → cur.pos ≤ cur.bits.length →
      ∃ cur', q'.cursor = some cur' ∧ cur'.bits = cur.bits ∧ cur.pos ≤ cur'.pos ∧ cur'.pos ≤ cur.bits.length) ∧
    ((i.readsStream = false ∨ q'.code = .illegal ∨ q'.code = .config ∨ ∃ w, q'.phase = .hold w) →
      q'.cursor = q.cursor)

/-- FRAME of the results, for all six commands: RESULT0 and RESULT1 are written only by a decode command that completes with
OK and sets VALID; every other completion clears VALID and leaves them, and a hold leaves the whole port but its phase
(R31, R34, R107). -/
def Obligations.ResultsWrittenOnlyByCompletedDecodes : Prop :=
  ∀ (i : Instr) (s t : State) (q q' : Port), exec i s = .next t → s.port? s.cur = some q → t.port? s.cur = some q' →
    (q' = { q with phase := .hold (encode i) } ∧ i.WellFormed) ∨
    (q'.phase = .idle ∧ q'.valid = true ∧ q'.code = .ok ∧ i.readsStream = true ∧ i.WellFormed) ∨
    (q'.phase = .idle ∧ q'.valid = false ∧ q'.consumed = 0#5 ∧ q'.result0 = q.result0 ∧ q'.result1 = q.result1)

/-- The moves of the build states (R24): a step that is no reset moves `cbstate[c]` only UNBUILT to BUILDING and BUILDING to
BUILT or FAULT. -/
def Obligations.BuildStatesMoveOnlyForward : Prop :=
  ∀ (s t : State), step s = .next t → s.inputs.head? ≠ some .reset → ∀ c, (s.cb c).mayMove (t.cb c) = true

/-- Built once (R114, which the spec derives): over any run without a reset a BUILT codebook stays BUILT, a FAULT one stays
FAULT, and a claimed one never goes back to UNBUILT. -/
def Obligations.CodebooksAreBuiltAtMostOnce : Prop :=
  ∀ (k : Nat) (s t : State), Host.Core.run Sys2Proof.core k s = .next t → Action.reset ∉ s.inputs →
    ∀ c, (s.cb c = .built → t.cb c = .built) ∧ (s.cb c = .fault → t.cb c = .fault) ∧
      (s.cb c ≠ .unbuilt → t.cb c ≠ .unbuilt)

/-- No action writes the registry, the other parameters or the number of ports (R21, R182). -/
def Obligations.ParametersAreConstant : Prop :=
  ∀ (s t : State), step s = .next t → t.params = s.params ∧ t.ports.length = s.ports.length

/-- The invariant holds at reset. -/
def Obligations.InvariantHoldsAtReset : Prop :=
  State.reset.Inv

/-- The invariant of the block is kept by every step from every state that has it: positions lie in their streams, a valid
result came from an OK completion that consumed 1 to 19 bits, a held word is a legal command on a claimed codebook, and
BUILT and FAULT say what the check says (R21, R31, R33, R36, R37, R102). -/
def Obligations.StepKeepsInvariant : Prop :=
  ∀ (s t : State), s.Inv → step s = .next t → t.Inv

/-- From a state with the invariant, a held port can always be released once its build is over: the step answers a next
state, so no held command is lost (R107, R201). -/
def Obligations.ReleaseNeverGetsStuck : Prop :=
  ∀ (s : State) (rest : List Action) (p : Nat) (q : Port) (w : Word) (i : Instr), s.Inv →
    s.inputs = .release p :: rest → s.port? p = some q → q.phase = .hold w → decode w = .ok i →
    (s.cb i.codebook = .built ∨ s.cb i.codebook = .fault) →
    ∃ t q', step s = .next t ∧ t.port? p = some q' ∧ q'.phase = .idle

/-- Fairness (R201) in a bounded form: from every state with the invariant and nothing scheduled, at most `12 + P` steps of
the block by itself reach the end of a run (R203): every claimed codebook is BUILT or FAULT and every port is idle. That
the block moves by itself when nothing is scheduled, and in which order, is the model's choice (log 9). -/
def Obligations.UnscheduledBlockComesToRest : Prop :=
  ∀ s : State, s.Inv → s.inputs = [] →
    ∃ k t, k ≤ 12 + s.ports.length ∧ Host.Core.run Sys2Proof.core k s = .next t ∧ t.finished = true ∧
      (∀ c, s.cb c = .building → t.cb c = .built ∨ t.cb c = .fault)

/-- What a command does on a port depends only on the command, the parameters, the build states, the port's number and the
port itself (R39): in two states that agree on these, the same command ends the same way, and two next states agree on
them again, whatever the other ports hold. R39 excepts the position after a stream error, a draw; that it too agrees, because
the model draws it by the port's number and the port's own count of draws, is the model's choice (log 7, DESIGN CHOICE). -/
def Obligations.CommandDependsOnlyOnItsPort : Prop :=
  ∀ (i : Instr) (s t : State), SameView s t →
    (∀ s', exec i s = .next s' → ∃ t', exec i t = .next t' ∧ SameView s' t') ∧
    (∀ f, exec i s = .fault f ↔ exec i t = .fault f) ∧
    (∀ r, exec i s = .refused r ↔ exec i t = .refused r)

/-- Commands on different ports commute when their codebooks are not to be claimed (R58, which the spec derives): either
order of the two steps gives the same ports and the same build states. That the positions after stream errors, which are
draws (R108), are the same in both orders rests on the model's count of draws per port (log 7, DESIGN CHOICE). -/
def Obligations.CommandsOnDifferentPortsCommute : Prop :=
  ∀ (i j : Instr) (s s1 s2 : State) (p r : Nat), p ≠ r → s.cb i.codebook ≠ .unbuilt → s.cb j.codebook ≠ .unbuilt →
    exec i { s with cur := p } = .next s1 → exec j { s1 with cur := r } = .next s2 →
    ∃ u1 u2, exec j { s with cur := r } = .next u1 ∧ exec i { u1 with cur := p } = .next u2 ∧
      u2.ports = s2.ports ∧ u2.cbstate = s2.cbstate ∧ u2.params = s2.params

/-- The claim (R60): of two ports that issue commands to one UNBUILT codebook, one after the other, the first claims the
build and both hold; the second changes no build state. -/
def Obligations.OneOfTwoPortsClaimsTheBuild : Prop :=
  ∀ (i j : Instr) (s : State) (p r : Nat) (q q' : Port), p ≠ r → s.port? p = some q → s.port? r = some q' →
    q.phase = .idle → q'.phase = .idle → i.WellFormed → j.WellFormed → i.codebook = j.codebook →
    (i.readsStream = true → q.cursor.isSome = true) → (j.readsStream = true → q'.cursor.isSome = true) →
    s.cb i.codebook = .unbuilt →
    ∃ s1 s2, exec i { s with cur := p } = .next s1 ∧ exec j { s1 with cur := r } = .next s2 ∧
      s1.cb i.codebook = .building ∧ s2.cbstate = s1.cbstate ∧
      s2.port? p = some { q with phase := .hold (encode i) } ∧
      s2.port? r = some { q' with phase := .hold (encode j) }
end

