-- ==== Sys2Proof/Laws/State.lean ====
section
/-! SUPPORT. One lemma per field per update: what each named update of the state leaves and what it writes. -/

namespace Sys2Proof

@[simp] theorem PerBook.get_replicate {α : Type} (x : α) (c : Codebook) : (PerBook.replicate x).get c = x := by
  cases c <;> rfl

@[simp] theorem PerBook.get_set_self {α : Type} (v : PerBook α) (c : Codebook) (x : α) : (v.set c x).get c = x := by
  cases c <;> rfl

theorem PerBook.get_set_ne {α : Type} (v : PerBook α) {c d : Codebook} (x : α) (h : d ≠ c) :
    (v.set c x).get d = v.get d := by
  cases c <;> cases d <;> first | rfl | exact absurd rfl h

theorem PerBook.get_set {α : Type} (v : PerBook α) (c d : Codebook) (x : α) :
    (v.set c x).get d = if d = c then x else v.get d := by
  by_cases h : d = c
  · subst h; simp
  · simp [h, PerBook.get_set_ne v x h]

namespace Machine

section setPort
variable (s : State) (p : Nat) (q : Port)

@[simp] theorem State.setPort_params : (s.setPort p q).params = s.params := rfl
@[simp] theorem State.setPort_cbstate : (s.setPort p q).cbstate = s.cbstate := rfl
@[simp] theorem State.setPort_ports : (s.setPort p q).ports = s.ports.set p q := rfl
@[simp] theorem State.setPort_cur : (s.setPort p q).cur = s.cur := rfl
@[simp] theorem State.setPort_inputs : (s.setPort p q).inputs = s.inputs := rfl
@[simp] theorem State.setPort_replies : (s.setPort p q).replies = s.replies := rfl
@[simp] theorem State.setPort_cb (c : Codebook) : (s.setPort p q).cb c = s.cb c := rfl
@[simp] theorem State.setPort_romOf (c : Codebook) : (s.setPort p q).romOf c = s.romOf c := rfl

theorem State.port?_setPort_self {q' : Port} (h : s.port? p = some q') : (s.setPort p q).port? p = some q := by
  have hp : p < s.ports.length := (List.getElem?_eq_some_iff.mp h).1
  simp [State.port?, hp]

theorem State.port?_setPort_ne {r : Nat} (h : r ≠ p) : (s.setPort p q).port? r = s.port? r := by
  simp [State.port?, Ne.symm h]

end setPort

section setCb
variable (s : State) (c : Codebook) (x : CbState)

@[simp] theorem State.setCb_params : (s.setCb c x).params = s.params := rfl
@[simp] theorem State.setCb_cbstate : (s.setCb c x).cbstate = s.cbstate.set c x := rfl
@[simp] theorem State.setCb_ports : (s.setCb c x).ports = s.ports := rfl
@[simp] theorem State.setCb_cur : (s.setCb c x).cur = s.cur := rfl
@[simp] theorem State.setCb_inputs : (s.setCb c x).inputs = s.inputs := rfl
@[simp] theorem State.setCb_replies : (s.setCb c x).replies = s.replies := rfl
@[simp] theorem State.setCb_port? (p : Nat) : (s.setCb c x).port? p = s.port? p := rfl
@[simp] theorem State.setCb_romOf (d : Codebook) : (s.setCb c x).romOf d = s.romOf d := rfl
@[simp] theorem State.setCb_cb_self : (s.setCb c x).cb c = x := by simp [State.cb, State.setCb]

theorem State.setCb_cb (d : Codebook) : (s.setCb c x).cb d = if d = c then x else s.cb d := by
  simp [State.cb, State.setCb, PerBook.get_set]

/-- The port of a state whose build state was changed as well. -/
theorem State.port?_setCb_setPort_self (p : Nat) (q : Port) {q' : Port} (h : s.port? p = some q') :
    ((s.setCb c x).setPort p q).port? p = some q :=
  State.port?_setPort_self (s.setCb c x) p q h

end setCb

section port
variable (q : Port)

@[simp] theorem Port.report_code (e : Code) (v : Bool) (n : Nat) : (q.report e v n).code = e := rfl
@[simp] theorem Port.report_valid (e : Code) (v : Bool) (n : Nat) : (q.report e v n).valid = v := rfl
@[simp] theorem Port.report_consumed (e : Code) (v : Bool) (n : Nat) :
    (q.report e v n).consumed = BitVec.ofNat 5 n := rfl
@[simp] theorem Port.report_phase (e : Code) (v : Bool) (n : Nat) : (q.report e v n).phase = .idle := rfl
@[simp] theorem Port.report_result0 (e : Code) (v : Bool) (n : Nat) : (q.report e v n).result0 = q.result0 := rfl
@[simp] theorem Port.report_result1 (e : Code) (v : Bool) (n : Nat) : (q.report e v n).result1 = q.result1 := rfl
@[simp] theorem Port.report_cursor (e : Code) (v : Bool) (n : Nat) : (q.report e v n).cursor = q.cursor := rfl
@[simp] theorem Port.report_draws (e : Code) (v : Bool) (n : Nat) : (q.report e v n).draws = q.draws := rfl

@[simp] theorem Port.reportNoResult_code (e : Code) : (q.reportNoResult e).code = e := rfl
@[simp] theorem Port.reportNoResult_valid (e : Code) : (q.reportNoResult e).valid = false := rfl
@[simp] theorem Port.reportNoResult_consumed (e : Code) : (q.reportNoResult e).consumed = 0#5 := rfl
@[simp] theorem Port.reportNoResult_phase (e : Code) : (q.reportNoResult e).phase = .idle := rfl
@[simp] theorem Port.reportNoResult_result0 (e : Code) : (q.reportNoResult e).result0 = q.result0 := rfl
@[simp] theorem Port.reportNoResult_result1 (e : Code) : (q.reportNoResult e).result1 = q.result1 := rfl
@[simp] theorem Port.reportNoResult_cursor (e : Code) : (q.reportNoResult e).cursor = q.cursor := rfl
@[simp] theorem Port.reportNoResult_draws (e : Code) : (q.reportNoResult e).draws = q.draws := rfl

@[simp] theorem Port.holdOn_code (w : Word) : (q.holdOn w).code = q.code := rfl
@[simp] theorem Port.holdOn_valid (w : Word) : (q.holdOn w).valid = q.valid := rfl
@[simp] theorem Port.holdOn_consumed (w : Word) : (q.holdOn w).consumed = q.consumed := rfl
@[simp] theorem Port.holdOn_phase (w : Word) : (q.holdOn w).phase = .hold w := rfl
@[simp] theorem Port.holdOn_result0 (w : Word) : (q.holdOn w).result0 = q.result0 := rfl
@[simp] theorem Port.holdOn_result1 (w : Word) : (q.holdOn w).result1 = q.result1 := rfl
@[simp] theorem Port.holdOn_cursor (w : Word) : (q.holdOn w).cursor = q.cursor := rfl
@[simp] theorem Port.holdOn_draws (w : Word) : (q.holdOn w).draws = q.draws := rfl

variable (p n : Nat) (cur : Cursor)

@[simp] theorem streamError_code (e : Code) : (streamError p q cur e).code = e := rfl
@[simp] theorem streamError_valid (e : Code) : (streamError p q cur e).valid = false := rfl
@[simp] theorem streamError_consumed (e : Code) : (streamError p q cur e).consumed = 0#5 := rfl
@[simp] theorem streamError_phase (e : Code) : (streamError p q cur e).phase = .idle := rfl
@[simp] theorem streamError_result0 (e : Code) : (streamError p q cur e).result0 = q.result0 := rfl
@[simp] theorem streamError_result1 (e : Code) : (streamError p q cur e).result1 = q.result1 := rfl
@[simp] theorem streamError_draws (e : Code) : (streamError p q cur e).draws = q.draws + 1 := rfl
@[simp] theorem streamError_cursor (e : Code) :
    (streamError p q cur e).cursor = some { cur with pos := drawPosition p q.draws cur } := rfl

variable (r : Word × Word)

@[simp] theorem decodeDone_code : (decodeDone q cur n r).code = .ok := rfl
@[simp] theorem decodeDone_valid : (decodeDone q cur n r).valid = true := rfl
@[simp] theorem decodeDone_consumed : (decodeDone q cur n r).consumed = BitVec.ofNat 5 n := rfl
@[simp] theorem decodeDone_phase : (decodeDone q cur n r).phase = .idle := rfl
@[simp] theorem decodeDone_result0 : (decodeDone q cur n r).result0 = r.1 := rfl
@[simp] theorem decodeDone_result1 : (decodeDone q cur n r).result1 = r.2 := rfl
@[simp] theorem decodeDone_cursor : (decodeDone q cur n r).cursor = some (cur.advance n) := rfl
@[simp] theorem decodeDone_draws : (decodeDone q cur n r).draws = q.draws := rfl

end port

@[simp] theorem Cursor.advance_bits (cur : Cursor) (n : Nat) : (cur.advance n).bits = cur.bits := rfl
@[simp] theorem Cursor.advance_pos (cur : Cursor) (n : Nat) : (cur.advance n).pos = cur.pos + n := rfl

section resetBlock
variable (s : State)

@[simp] theorem resetBlock_params : (resetBlock s).params = s.params := rfl
@[simp] theorem resetBlock_cb (c : Codebook) : (resetBlock s).cb c = .unbuilt := by simp [resetBlock, State.cb]
@[simp] theorem resetBlock_ports : (resetBlock s).ports = s.ports.map Port.afterReset := rfl
@[simp] theorem resetBlock_inputs : (resetBlock s).inputs = s.inputs := rfl
@[simp] theorem resetBlock_replies : (resetBlock s).replies = s.replies := rfl

end resetBlock

end Machine
end Sys2Proof
end

