-- ==== Sys2Proof/Laws/Ops.lean ====
section
/-! SUPPORT. For each shared operation, one lemma that says everything it can do when it answers a next state. -/

namespace Sys2Proof.Machine

/-- A draw lies between the old position and the end of the stream (R108). -/
theorem drawPosition_bounds (p k : Nat) (cur : Cursor) (h : cur.pos ≤ cur.bits.length) :
    cur.pos ≤ drawPosition p k cur ∧ drawPosition p k cur ≤ cur.bits.length := by
  have hlt : Config.cursorDraw p k % (cur.rem + 1) < cur.rem + 1 := Nat.mod_lt _ (Nat.succ_pos _)
  simp only [drawPosition]
  unfold Cursor.rem at *
  omega

/-- A decode that answers a next state had a cursor and an admissible table, and set the port by its outcome. -/
theorem performDecode_next {c : Codebook} {pack : Nat → Nat → Word × Word} {s t : State} {q : Port}
    (h : performDecode c pack s q = .next t) :
    ∃ cur, q.cursor = some cur ∧ (s.romOf c).prefixFree = true ∧
      t = s.setPort s.cur (afterDecode s.cur q cur pack (decodeFn (s.romOf c) cur)) := by
  unfold performDecode at h
  split at h
  · cases h
  · rename_i cur hc
    split at h
    · rename_i hp
      cases h
      exact ⟨cur, hc, hp, rfl⟩
    · cases h

/-- A decode with a cursor and an admissible table answers a next state. -/
theorem performDecode_eq {c : Codebook} {pack : Nat → Nat → Word × Word} {s : State} {q : Port} {cur : Cursor}
    (hc : q.cursor = some cur) (hp : (s.romOf c).prefixFree = true) :
    performDecode c pack s q =
      .next (s.setPort s.cur (afterDecode s.cur q cur pack (decodeFn (s.romOf c) cur))) := by
  simp [performDecode, hc, hp]

/-- What a command that answers a next state did (R103, R178). -/
theorem issue_next {i : Instr} {perform : State → Port → Outcome} {s t : State} (h : issue i perform s = .next t) :
    ∃ q, s.port? s.cur = some q ∧ q.phase = .idle ∧
      ((i.wf = false ∧ t = s.setPort s.cur (q.reportNoResult .illegal)) ∨
       (i.wf = true ∧ (i.readsStream = true → q.cursor.isSome = true) ∧
         ((s.cb i.codebook = .unbuilt ∧
            t = (s.setCb i.codebook .building).setPort s.cur (q.holdOn (encode i))) ∨
          (s.cb i.codebook = .building ∧ t = s.setPort s.cur (q.holdOn (encode i))) ∨
          (s.cb i.codebook = .built ∧ perform s q = .next t) ∨
          (s.cb i.codebook = .fault ∧ t = s.setPort s.cur (q.reportNoResult .config))))) := by
  unfold issue at h
  split at h
  · cases h
  · rename_i q hq
    refine ⟨q, hq, ?_⟩
    split at h
    · cases h
    · rename_i hphase
      refine ⟨hphase, ?_⟩
      split at h
      · rename_i hwf
        cases h
        exact .inl ⟨hwf, rfl⟩
      · rename_i hwf
        split at h
        · cases h
        · rename_i hcur
          refine .inr ⟨by simpa using hwf, fun hr => by simpa [hr, Option.isSome_iff_ne_none] using hcur, ?_⟩
          split at h <;> rename_i hcb
          · cases h; exact .inl ⟨hcb, rfl⟩
          · cases h; exact .inr (.inl ⟨hcb, rfl⟩)
          · exact .inr (.inr (.inl ⟨hcb, h⟩))
          · cases h; exact .inr (.inr (.inr ⟨hcb, rfl⟩))

/-- A well-formed command on an idle port with the cursor it needs takes the row of R103 that the build state names. -/
theorem issue_eq {i : Instr} {perform : State → Port → Outcome} {s : State} {q : Port}
    (hq : s.port? s.cur = some q) (hphase : q.phase = .idle) (hwf : i.wf = true)
    (hcur : i.readsStream = true → q.cursor.isSome = true) :
    issue i perform s =
      match s.cb i.codebook with
      | .unbuilt => .next ((s.setCb i.codebook .building).setPort s.cur (q.holdOn (encode i)))
      | .building => .next (s.setPort s.cur (q.holdOn (encode i)))
      | .built => perform s q
      | .fault => .next (s.setPort s.cur (q.reportNoResult .config)) := by
  have hc : ¬(i.readsStream && q.cursor.isNone) = true := by
    cases hr : i.readsStream
    · simp
    · have := hcur hr
      cases hq' : q.cursor <;> simp_all
  cases hcb : s.cb i.codebook <;>
    simp only [issue, hq, hphase, hwf, if_neg hc, hcb, Bool.true_eq_false, if_false]

/-- What `perform` of a command is (R105, R109). -/
def performOf (table : List Word) : Instr → State → Port → Outcome
  | .build _ => performBuild
  | .decIdx c => performDecode c (resultsOf table (.decIdx c))
  | .decQuad c => performDecode c (resultsOf table (.decQuad c))
  | .decPair c => performDecode c (resultsOf table (.decPair c))
  | .decEsc c => performDecode c (resultsOf table (.decEsc c))
  | .decSf c => performDecode c (resultsOf table (.decSf c))

/-- Every command is `issue` over its own `perform`. -/
theorem exec_eq_issue (i : Instr) (s : State) : exec i s = issue i (performOf s.params.iquantTable i) s := by
  cases i <;> rfl

/-- A decode command's `perform` is the shared decode with its packing. -/
theorem performOf_decode {i : Instr} (table : List Word) (h : i.readsStream = true) :
    performOf table i = performDecode i.codebook (resultsOf table i) := by
  cases i <;> first | rfl | simp [Instr.readsStream] at h

/-- BUILD is the one command that reads no stream. -/
theorem performOf_build {i : Instr} (table : List Word) (h : i.readsStream = false) :
    performOf table i = performBuild := by
  cases i <;> first | rfl | simp [Instr.readsStream] at h

/-- What the port of an executed command is afterwards, by cases. -/
theorem exec_next {i : Instr} {s t : State} (h : exec i s = .next t) :
    ∃ q, s.port? s.cur = some q ∧ q.phase = .idle ∧
      ((i.wf = false ∧ t = s.setPort s.cur (q.reportNoResult .illegal)) ∨
       (i.wf = true ∧ s.cb i.codebook = .unbuilt ∧ (i.readsStream = true → q.cursor.isSome = true) ∧
          t = (s.setCb i.codebook .building).setPort s.cur (q.holdOn (encode i))) ∨
       (i.wf = true ∧ s.cb i.codebook = .building ∧ (i.readsStream = true → q.cursor.isSome = true) ∧
          t = s.setPort s.cur (q.holdOn (encode i))) ∨
       (i.wf = true ∧ s.cb i.codebook = .fault ∧ t = s.setPort s.cur (q.reportNoResult .config)) ∨
       (i.wf = true ∧ s.cb i.codebook = .built ∧ i.readsStream = false ∧
          t = s.setPort s.cur (q.reportNoResult .ok)) ∨
       (i.wf = true ∧ s.cb i.codebook = .built ∧ i.readsStream = true ∧
          ∃ cur, q.cursor = some cur ∧ (s.romOf i.codebook).prefixFree = true ∧
            t = s.setPort s.cur (afterDecode s.cur q cur (resultsOf s.params.iquantTable i)
                  (decodeFn (s.romOf i.codebook) cur)))) := by
  rw [exec_eq_issue] at h
  obtain ⟨q, hq, hphase, ⟨hwf, rfl⟩ | ⟨hwf, hcur, hrow⟩⟩ := issue_next h
  · exact ⟨q, hq, hphase, .inl ⟨hwf, rfl⟩⟩
  · refine ⟨q, hq, hphase, .inr ?_⟩
    obtain ⟨hcb, rfl⟩ | ⟨hcb, rfl⟩ | ⟨hcb, hperf⟩ | ⟨hcb, rfl⟩ := hrow
    · exact .inl ⟨hwf, hcb, hcur, rfl⟩
    · exact .inr (.inl ⟨hwf, hcb, hcur, rfl⟩)
    · cases hr : i.readsStream
      · rw [performOf_build _ hr] at hperf
        cases hperf
        exact .inr (.inr (.inr (.inl ⟨hwf, hcb, rfl, rfl⟩)))
      · rw [performOf_decode _ hr] at hperf
        obtain ⟨cur, hc, hp, rfl⟩ := performDecode_next hperf
        exact .inr (.inr (.inr (.inr ⟨hwf, hcb, rfl, cur, hc, hp, rfl⟩)))
    · exact .inr (.inr (.inl ⟨hwf, hcb, rfl⟩))

/-- What the builder's step does (R102). -/
theorem builderStep_next {c : Codebook} {s t : State} (h : builderStep c s = .next t) :
    s.cb c = .building ∧ t = s.setCb c (if (s.romOf c).check c then .built else .fault) := by
  unfold builderStep at h
  split at h
  · rename_i hb
    cases h
    exact ⟨hb, rfl⟩
  · cases h

/-- What a change of a cursor does (R196). -/
theorem changeCursor_next {p pos : Nat} {bits : List Bool} {s t : State} (h : changeCursor p bits pos s = .next t) :
    ∃ q, s.port? p = some q ∧ q.phase = .idle ∧ pos ≤ bits.length ∧
      t = s.setPort p { q with cursor := some ⟨bits, pos⟩ } := by
  unfold changeCursor at h
  split at h
  · cases h
  · rename_i q hq
    split at h
    · cases h
    · rename_i hphase
      split at h
      · rename_i hpos
        cases h
        exact ⟨q, hq, hphase, hpos, rfl⟩
      · cases h

/-- A move of `pos` keeps the stream (R196). -/
theorem seek_next {p pos : Nat} {s t : State} (h : seek p pos s = .next t) :
    ∃ q cur, s.port? p = some q ∧ q.phase = .idle ∧ q.cursor = some cur ∧ pos ≤ cur.bits.length ∧
      t = s.setPort p { q with cursor := some ⟨cur.bits, pos⟩ } := by
  unfold seek at h
  split at h
  · cases h
  · rename_i q hq
    split at h
    · cases h
    · rename_i cur hc
      obtain ⟨q', hq', hphase, hpos, rfl⟩ := changeCursor_next h
      obtain rfl : q = q' := by simpa [hq] using hq'
      exact ⟨q, cur, hq, hphase, hc, hpos, rfl⟩

/-- Attaching bytes attaches their bits (R52). -/
theorem attachBytes_next {p len pos : Nat} {bytes : List Byte} {s t : State}
    (h : attachBytes p bytes len pos s = .next t) :
    len ≤ 8 * bytes.length ∧ changeCursor p ((bitsOfBytes bytes).take len) pos s = .next t := by
  unfold attachBytes at h
  split at h
  · exact ⟨‹_›, h⟩
  · cases h

/-- A read only appends a reply (R56). -/
theorem readAccess_next {a : RegAddr} {width : Nat} {s t : State} (h : readAccess a width s = .next t) :
    ∃ w, t = { s with replies := s.replies ++ [w] } := by
  unfold readAccess at h
  split at h
  · cases h
  · split at h
    · cases h
    · rename_i w _
      cases h
      exact ⟨w, rfl⟩

/-- What a write of `CMD` does: it executes a command or reports ILLEGAL (R28, R74). -/
theorem writeCmd_next {p : Nat} {w : Word} {s t : State} (h : writeCmd p w s = .next t) :
    ∃ q, s.port? p = some q ∧ q.phase = .idle ∧
      ((∃ i, decode w = .ok i ∧ exec i { s with cur := p } = .next t) ∨
       (∃ e, decode w = .error e ∧ t = { s with cur := p }.setPort p (q.reportNoResult .illegal))) := by
  unfold writeCmd at h
  split at h
  · cases h
  · rename_i q hq
    split at h
    · cases h
    · rename_i hphase
      refine ⟨q, hq, hphase, ?_⟩
      split at h
      · rename_i i hi
        exact .inl ⟨i, hi, h⟩
      · rename_i e he
        cases h
        exact .inr ⟨e, he, rfl⟩

/-- A write is ignored, or it is a write of `CMD` (R56). -/
theorem writeAccess_next {a : RegAddr} {width : Nat} {data : Word} {s t : State}
    (h : writeAccess a width data s = .next t) :
    t = s ∨ ∃ p, writeCmd p data s = .next t := by
  unfold writeAccess at h
  split at h
  · cases h
  · rename_i p _ r _
    cases r with
    | cmd => exact .inr ⟨p, h⟩
    | status => cases h; exact .inl rfl
    | result0 => cases h; exact .inl rfl
    | result1 => cases h; exact .inl rfl
    | cbState => cases h; exact .inl rfl

/-- What a release does: it executes the held command on the port made idle (R107). -/
theorem releaseStep_next {p : Nat} {s t : State} (h : releaseStep p s = .next t) :
    ∃ q w i, s.port? p = some q ∧ q.phase = .hold w ∧ decode w = .ok i ∧ s.buildOver i.codebook = true ∧
      exec i ({ s with cur := p }.setPort p { q with phase := .idle }) = .next t := by
  unfold releaseStep at h
  split at h
  · cases h
  · rename_i q hq
    split at h
    · cases h
    · rename_i w hw
      split at h
      · cases h
      · rename_i i hi
        split at h
        · rename_i hb
          exact ⟨q, w, i, hq, hw, hi, hb, h⟩
        · cases h

/-- A step is one action: the next one scheduled, the block's own move, or rest (R201). -/
theorem step_next {s t : State} (h : step s = .next t) :
    (∃ a rest, s.inputs = a :: rest ∧ act a { s with inputs := rest } = .next t) ∨
    (s.inputs = [] ∧ ∃ a, ownMove? s = some a ∧ act a s = .next t) ∨
    (s.inputs = [] ∧ ownMove? s = none ∧ t = s) := by
  simp only [step, advance] at h
  split at h
  · rename_i a rest hin
    exact .inl ⟨a, rest, hin, h⟩
  · rename_i hin
    split at h
    · rename_i a ha
      exact .inr (.inl ⟨hin, a, ha, h⟩)
    · rename_i ha
      cases h
      exact .inr (.inr ⟨hin, ha, rfl⟩)

/-- A decoded command is well formed (R73). -/
theorem decode_wf {w : Word} {i : Instr} (h : decode w = .ok i) : i.wf = true := by
  unfold decode at h
  split at h
  · cases h
  · split at h
    · split at h <;> cases h
    · split at h
      · cases h
      · split at h
        · cases h
          assumption
        · cases h

/-- With an action scheduled, a step is that action. -/
theorem step_cons {s : State} {a : Action} {rest : List Action} (h : s.inputs = a :: rest) :
    step s = act a { s with inputs := rest } := by
  simp only [step, advance, h]

/-- With nothing scheduled and nothing to do, a step is rest. -/
theorem step_rest {s : State} (h : s.inputs = []) (hm : ownMove? s = none) : step s = .next s := by
  simp only [step, advance, h, hm]

/-- With nothing scheduled, a step is the block's own move. -/
theorem step_own {s : State} {a : Action} (h : s.inputs = []) (hm : ownMove? s = some a) : step s = act a s := by
  simp only [step, advance, h, hm]

/-- A register access that has a meaning reaches its register (R53, R54). -/
theorem resolve_eq {s : State} {a : RegAddr} {p off : Nat} {r : Register} {q : Port}
    (hl : locate? s.params.regBase a = some (p, off)) (ho : off % 4 = 0) (hr : registerAt? off = some r)
    (hq : s.port? p = some q) : resolve s a 32 = .register p q r := by
  simp [resolve, hl, ho, hr, hq]

/-- A legal word written to `CMD` of an idle port is executed (R28). -/
theorem writeCmd_ok {p : Nat} {w : Word} {s : State} {q : Port} {i : Instr} (hq : s.port? p = some q)
    (hphase : q.phase = .idle) (hi : decode w = .ok i) : writeCmd p w s = exec i { s with cur := p } := by
  simp only [writeCmd, hq, hphase, hi]

/-- A word that is no command completes with ILLEGAL (R174). -/
theorem writeCmd_error {p : Nat} {w : Word} {s : State} {q : Port} {e : DecodeError} (hq : s.port? p = some q)
    (hphase : q.phase = .idle) (he : decode w = .error e) :
    writeCmd p w s = .next ({ s with cur := p }.setPort p (q.reportNoResult .illegal)) := by
  simp only [writeCmd, hq, hphase, he]

/-- A held port is released when its build is over (R107). -/
theorem releaseStep_eq {p : Nat} {s : State} {q : Port} {w : Word} {i : Instr} (hq : s.port? p = some q)
    (hw : q.phase = .hold w) (hi : decode w = .ok i) (hb : s.buildOver i.codebook = true) :
    releaseStep p s = exec i ({ s with cur := p }.setPort p { q with phase := .idle }) := by
  simp only [releaseStep, hq, hw, hi, hb, if_true]

/-- An allowed change of a cursor sets it and nothing else (R196). -/
theorem changeCursor_eq {p pos : Nat} {bits : List Bool} {s : State} {q : Port} (hq : s.port? p = some q)
    (hphase : q.phase = .idle) (hpos : pos ≤ bits.length) :
    changeCursor p bits pos s = .next (s.setPort p { q with cursor := some ⟨bits, pos⟩ }) := by
  simp only [changeCursor, hq, hphase, hpos, if_true]

/-- A move of `pos` is a change of the cursor that keeps its stream (R196). -/
theorem seek_eq {p pos : Nat} {s : State} {q : Port} {cur : Cursor} (hq : s.port? p = some q)
    (hc : q.cursor = some cur) : seek p pos s = changeCursor p cur.bits pos s := by
  simp only [seek, hq, hc]

end Sys2Proof.Machine
end

