-- ==== Sys2Proof/Laws/Invariant.lean ====
section
/-! SUPPORT. Small lemmas about the invariant's parts: what it takes for a port's part to carry over to another state. -/

namespace Sys2Proof.Machine

/-- A port's part of the invariant carries over to a state in which no claimed codebook is unbuilt again. -/
theorem PortInv.mono {s t : State} {q : Port} (h : PortInv s q)
    (claimed : ∀ c, s.cb c ≠ .unbuilt → t.cb c ≠ .unbuilt) : PortInv t q :=
  ⟨h.position, h.validOk, h.notValid, fun w hw =>
    let ⟨i, hi, hc, hr⟩ := h.held w hw
    ⟨i, hi, claimed _ hc, hr⟩⟩

/-- A port a state has is one of its list. -/
theorem State.mem_ports {s : State} {p : Nat} {q : Port} (h : s.port? p = some q) : q ∈ s.ports :=
  List.mem_of_getElem? h

end Sys2Proof.Machine
end

