-- ==== Sys2Proof/Laws/PerInstr.lean ====
section
/-! SUPPORT. One lemma per command of each family of statements "for every command". Family `EncodedFields`: the three
fields of a command's word (R70), well formed or not. -/

namespace Sys2Proof.Laws.EncodedFields

/-- The word of a command has RSV = 0, CB = the codebook's number and OP = the command's opcode, so it is
`(c << 4) | OP` (R70, R77). -/
def Statement (i : Instr) : Prop :=
  rsvField (encode i) = 0#24 ∧ (cbField (encode i)).toNat = i.codebook.num ∧ opField (encode i) = i.opcode ∧
    (encode i).toNat = 16 * i.codebook.num + i.opcode.toNat

theorem build (c : Codebook) : Statement (.build c) := by
  cases c <;> exact ⟨rfl, rfl, rfl, rfl⟩

theorem decIdx (c : Codebook) : Statement (.decIdx c) := by
  cases c <;> exact ⟨rfl, rfl, rfl, rfl⟩

theorem decQuad (c : Codebook) : Statement (.decQuad c) := by
  cases c <;> exact ⟨rfl, rfl, rfl, rfl⟩

theorem decPair (c : Codebook) : Statement (.decPair c) := by
  cases c <;> exact ⟨rfl, rfl, rfl, rfl⟩

theorem decEsc (c : Codebook) : Statement (.decEsc c) := by
  cases c <;> exact ⟨rfl, rfl, rfl, rfl⟩

theorem decSf (c : Codebook) : Statement (.decSf c) := by
  cases c <;> exact ⟨rfl, rfl, rfl, rfl⟩

end Sys2Proof.Laws.EncodedFields
end

