-- ==== Sys2Proof/Laws/Stream.lean ====
section
/-! SUPPORT. What the reading of the stream, the code tables and the search for a codeword say. -/

namespace Sys2Proof

/-- In a prefix-free list no word is a prefix of a word at another index (R14). -/
theorem prefixFreeWords_get {xs : List (Nat × Nat)} (h : prefixFreeWords xs = true) :
    ∀ (i j : Nat) (x y : Nat × Nat), i ≠ j → xs[i]? = some x → xs[j]? = some y → isPrefixOf x y = false := by
  induction xs with
  | nil => simp
  | cons z zs ih =>
    simp only [prefixFreeWords, Bool.and_eq_true, List.all_eq_true, Bool.not_eq_true'] at h
    intro i j x y hij hx hy
    match i, j with
    | 0, 0 => exact absurd rfl hij
    | 0, j + 1 =>
      simp only [List.getElem?_cons_zero, List.getElem?_cons_succ, Option.some.injEq] at hx hy
      subst hx
      exact (h.1 y (List.mem_of_getElem? hy)).1
    | i + 1, 0 =>
      simp only [List.getElem?_cons_zero, List.getElem?_cons_succ, Option.some.injEq] at hx hy
      subst hy
      exact (h.1 x (List.mem_of_getElem? hx)).2
    | i + 1, j + 1 => exact ih h.2 i j x y (by omega) (by simpa using hx) (by simpa using hy)

/-- The codeword of symbol `i` is the pair of the two arrays' entries (R21). -/
theorem CodeTable.words_getElem? {t : CodeTable} {i code len : Nat} :
    t.words[i]? = some (code, len) ↔ t.codes[i]? = some code ∧ t.lens[i]? = some len := by
  simp only [CodeTable.words, List.getElem?_zip_eq_some]

/-- What the check of R101 says of the codewords. -/
theorem CodeTable.check_words {c : Codebook} {t : CodeTable} (h : t.check c = true) :
    t.words.length = c.alphabet ∧ ∀ x ∈ t.words, 1 ≤ x.2 ∧ x.2 ≤ 19 ∧ x.1 < 2 ^ x.2 := by
  simp only [CodeTable.check, Bool.and_eq_true, beq_iff_eq, List.all_eq_true, codewordInRange,
    decide_eq_true_eq] at h
  refine ⟨by simp [CodeTable.words, h.1.1, h.1.2], fun x hx => ?_⟩
  have := h.2 x hx
  exact ⟨this.1.1, this.1.2, this.2⟩

namespace Machine

@[simp] theorem Cursor.length_tail (cur : Cursor) : cur.tail.length = cur.rem := by
  simp [Cursor.tail, Cursor.rem]

@[simp] theorem bitsToNat_nil : bitsToNat [] = 0 := rfl

@[simp] theorem bitsToNat_singleton (b : Bool) : bitsToNat [b] = b.toNat := by
  simp [bitsToNat]

/-- Reading one list after another shifts the first one up (R10). -/
theorem bitsToNat_append (a b : List Bool) : bitsToNat (a ++ b) = bitsToNat a * 2 ^ b.length + bitsToNat b := by
  have shift : ∀ (b : List Bool) (n : Nat),
      b.foldl (fun n b => 2 * n + b.toNat) n = n * 2 ^ b.length + bitsToNat b := by
    intro b
    induction b with
    | nil => simp
    | cons x xs ih =>
      intro n
      simp only [bitsToNat, List.foldl_cons, List.length_cons] at *
      rw [ih, ih (2 * 0 + x.toNat)]
      ring
  simp only [bitsToNat, List.foldl_append]
  rw [shift]
  rfl

/-- `n` bits spell a number below `2 ^ n`. -/
theorem bitsToNat_lt (a : List Bool) : bitsToNat a < 2 ^ a.length := by
  induction a using List.reverseRecOn with
  | nil => simp
  | append_singleton xs x ih =>
    rw [bitsToNat_append]
    have : x.toNat ≤ 1 := by cases x <;> decide
    simp only [bitsToNat_singleton, List.length_append, List.length_singleton, pow_succ, pow_zero]
    omega

@[simp] theorem natToBits_length (v n : Nat) : (natToBits v n).length = n := by
  induction n with
  | zero => rfl
  | succ n ih => simp [natToBits, ih]

/-- Reading a number's binary representation gives the number (R13). -/
theorem bitsToNat_natToBits (v n : Nat) : bitsToNat (natToBits v n) = v % 2 ^ n := by
  induction n with
  | zero => simp [natToBits, Nat.mod_one]
  | succ n ih =>
    have cons : natToBits v (n + 1) = [v / 2 ^ n % 2 == 1] ++ natToBits v n := rfl
    have bit : (v / 2 ^ n % 2 == 1).toNat = v / 2 ^ n % 2 := by
      rcases Nat.mod_two_eq_zero_or_one (v / 2 ^ n) with h | h <;> simp [h]
    rw [cons, bitsToNat_append, ih, natToBits_length, bitsToNat_singleton, bit, pow_succ, Nat.mod_mul]
    ring

/-- A shorter peek is the upper part of a longer one (R10). -/
theorem Cursor.peek_div (cur : Cursor) {m n : Nat} (h : m ≤ n) (hn : n ≤ cur.rem) :
    cur.peek n / 2 ^ (n - m) = cur.peek m := by
  have split : cur.tail.take n = cur.tail.take m ++ (cur.tail.drop m).take (n - m) := by
    rw [← List.take_append_drop m (cur.tail.take n)]
    simp [List.take_take, List.drop_take, h]
  have hlen : ((cur.tail.drop m).take (n - m)).length = n - m := by
    simp only [List.length_take, List.length_drop, Cursor.length_tail]
    omega
  have hlt := bitsToNat_lt ((cur.tail.drop m).take (n - m))
  rw [hlen] at hlt
  unfold Cursor.peek
  rw [split, bitsToNat_append, hlen, mul_comm, Nat.mul_add_div (by positivity), Nat.div_eq_of_lt hlt, add_zero]

/-- A codeword is present in the sense of R13. -/
theorem present_iff (cur : Cursor) (x : Nat × Nat) :
    present cur x = true ↔ x.2 ≤ cur.rem ∧ cur.peek x.2 = x.1 := by
  simp [present]

/-- The remaining bits are a proper prefix of a codeword in the sense of R104. -/
theorem cutShort_iff (cur : Cursor) (x : Nat × Nat) :
    cutShort cur x = true ↔ cur.rem < x.2 ∧ cur.peek cur.rem = x.1 / 2 ^ (x.2 - cur.rem) := by
  simp [cutShort]

/-- A symbol the search finds has its codeword present. -/
theorem findPresent_some {cur : Cursor} {xs : List (Nat × Nat)} {k i n : Nat}
    (h : findPresent cur k xs = some (i, n)) :
    ∃ j x, i = k + j ∧ xs[j]? = some x ∧ n = x.2 ∧ present cur x = true := by
  induction xs generalizing k with
  | nil => simp [findPresent] at h
  | cons x xs ih =>
    simp only [findPresent] at h
    split at h
    · cases h
      exact ⟨0, x, by simp, by simp, rfl, ‹_›⟩
    · obtain ⟨j, y, rfl, hy, hn, hp⟩ := ih h
      exact ⟨j + 1, y, by omega, by simpa using hy, hn, hp⟩

/-- The search fails exactly when no codeword is present. -/
theorem findPresent_none {cur : Cursor} {xs : List (Nat × Nat)} {k : Nat} :
    findPresent cur k xs = none ↔ ∀ x ∈ xs, present cur x = false := by
  induction xs generalizing k with
  | nil => simp [findPresent]
  | cons x xs ih =>
    simp only [findPresent]
    split <;> simp_all

/-- A match of the decode function is a symbol the search finds. -/
theorem decodeFn_matched {t : CodeTable} {cur : Cursor} {i n : Nat} (h : decodeFn t cur = .matched i n) :
    ∃ x, t.words[i]? = some x ∧ n = x.2 ∧ present cur x = true := by
  simp only [decodeFn] at h
  split at h
  · rename_i hf
    cases h
    obtain ⟨j, x, rfl, hx, hn, hp⟩ := findPresent_some hf
    exact ⟨x, by simpa using hx, hn, hp⟩
  · split at h <;> cases h

end Machine
end Sys2Proof
end

