-- ==== Sys2Proof/Tests/Slice0.lean ====
section
/-! SUPPORT. Tests: ill-formed terms the checks refuse, words written out from the spec's encoding, the value vectors V and
the command vectors T and B of 95_test_vectors.md on small states, and, for each statement with hypotheses, a concrete
state that meets them. -/

set_option Elab.async false

namespace Sys2Proof.Tests
open Sys2Proof Sys2Proof.Machine

/-! ## Small states -/

/-- Three codewords: `0`, `10`, `110`; the bits `111` are unused. -/
def tiny : CodeTable := ⟨[0, 2, 6], [1, 2, 3]⟩

/-- Two codewords of which the first is a prefix of the second: a table the model does not admit. -/
def clash : CodeTable := ⟨[1, 2], [1, 2]⟩

/-- The table of `TROM` (95_test_vectors.md section 2) for alphabet size `n` and `k`: symbol 0 is `0`, symbol `i` is `1`
followed by `i - 1` in `k` bits. -/
def tromTable (n k : Nat) : CodeTable :=
  ⟨0 :: (List.range (n - 1)).map (2 ^ k + ·), 1 :: List.replicate (n - 1) (k + 1)⟩

/-- The table of `TROM19` for codebook 12. -/
def trom19Table : CodeTable :=
  ⟨0 :: (List.range 120).map (4095 * 2 ^ 7 + ·), 1 :: List.replicate 120 19⟩

/-- Stream bits from a list of digits. -/
def bits (ds : List Nat) : List Bool := ds.map (· == 1)

/-- An idle port with the cursor `(S, pos)`. -/
def portAt (ds : List Nat) (pos : Nat) : Port := { Port.reset with cursor := some ⟨bits ds, pos⟩ }

/-- Two ports, `q` and one after reset; codebook `c` has table `t` and build state `x`, every other is unbuilt with an empty
table; REG_BASE is 0x1000. -/
def small (c : Codebook) (t : CodeTable) (x : CbState) (q : Port) (inputs : List Action) : State :=
  { params := { rom := (PerBook.replicate ⟨[], []⟩).set c t, iquantTable := defaultIquantTable, regBase := 0x1000 }
    cbstate := (PerBook.replicate .unbuilt).set c x
    ports := [q, Port.reset]
    cur := 0
    inputs := inputs
    replies := [] }

/-- What a host sees of port 0 after an outcome: RESULT0, RESULT1, STATUS and the position. -/
def seen (o : Host.Outcome State Fault Refusal) : Option (Word × Word × Word × Option Nat) :=
  (nextState? o).bind fun t => (t.port? 0).map fun q => (q.result0, q.result1, q.statusWord, q.cursor.map Cursor.pos)

/-- STATUS of port 0 and CB_STATE after an outcome. -/
def statusAndCb (o : Host.Outcome State Fault Refusal) : Option (Word × Word) :=
  (nextState? o).bind fun t => (t.port? 0).map fun q => (q.statusWord, cbStateWord t.cbstate)

/-! ## Well-formedness: one ill-formed term for each check (R72) -/

theorem test_wf_quad_refused : (Instr.decQuad .cb5).wf = false ∧ (Instr.decQuad .cb4).wf = true := by decide
theorem test_wf_pair_refused : (Instr.decPair .cb4).wf = false ∧ (Instr.decPair .cb11).wf = false := by decide
theorem test_wf_esc_refused : (Instr.decEsc .cb12).wf = false ∧ (Instr.decEsc .cb11).wf = true := by decide
theorem test_wf_sf_refused : (Instr.decSf .cb11).wf = false ∧ (Instr.decSf .cb12).wf = true := by decide

/-! ## Decoding: words written out bit by bit as RSV, CB, OP (R70, R71) -/

theorem test_decode_build : decode 0b00000000000000000000000011000001#32 = .ok (.build .cb12) := by decide +kernel
theorem test_decode_decIdx : decode 0b00000000000000000000000010010010#32 = .ok (.decIdx .cb9) := by decide +kernel
theorem test_decode_decQuad : decode 0b00000000000000000000000000110011#32 = .ok (.decQuad .cb3) := by decide +kernel
theorem test_decode_decPair : decode 0b00000000000000000000000001010100#32 = .ok (.decPair .cb5) := by decide +kernel
theorem test_decode_decEsc : decode 0b00000000000000000000000010110101#32 = .ok (.decEsc .cb11) := by decide +kernel
theorem test_decode_decSf : decode 0b00000000000000000000000011000110#32 = .ok (.decSf .cb12) := by decide +kernel

/-- The illegal words of B7 to B14, each refused by name. -/
theorem test_decode_illegal :
    decode 0x00000000#32 = .error .reservedOpcode ∧ decode 0x00000007#32 = .error .reservedOpcode ∧
    decode 0x00000003#32 = .error .noSuchCodebook ∧ decode 0x00000053#32 = .error .wrongKind ∧
    decode 0x000000D1#32 = .error .noSuchCodebook ∧ decode 0x00000113#32 = .error .reservedBits ∧
    decode 0x000000C5#32 = .error .wrongKind ∧ decode 0x000000B6#32 = .error .wrongKind := by decide +kernel

theorem test_decodeTableWord : decodeTableWord 32 0x000000A4 = some (.decPair .cb10) ∧
    decodeTableWord 32 0x000000B4 = none := by decide +kernel

/-- The assembler's text of a command (R77). -/
theorem test_asm : assemble? "DEC.PAIR 10" = some (.decPair .cb10) ∧ assemble? "DEC.PAIR 4" = none := by decide +kernel

/-! ## Values: V6, V10, V14, V22, V27 and the default table -/

theorem test_V6 : unsignedPair defaultIquantTable 8 63 = .pair 0x41563F90#32 0x41563F90#32 := by decide +kernel
theorem test_V10 : unsignedPair defaultIquantTable 13 168 = .pair 0x41DBC8FF#32 0x41DBC8FF#32 := by decide +kernel
theorem test_V14 : signedPair defaultIquantTable 9 31 = .pair 0xBF800000#32 0x00000000#32 := by decide +kernel
theorem test_V22 : escapeValue 271 = .esc 15#16 16#16 := by decide +kernel
theorem test_V27 : quadValue 26 = .quad 0#8 2#8 2#8 2#8 := by decide +kernel
theorem test_V29a : unsignedPair defaultIquantTable 13 104 = .pair 0x41800000#32 0x00000000#32 := by decide +kernel

/-! ## Commands: the vectors T on TROM, each one step -/

/-- T3: symbol 60 of TROM's codebook 12; the table is cut after the symbols the vector needs. -/
theorem test_decIdx_T3 : seen (exec (.decIdx .cb12)
    (small .cb12 (tromTable 62 7) .built (portAt [1,0,1,1, 1,0,1,1] 0) [])) =
    some (0x0000003C#32, 0x00000008#32, 0x00000810#32, some 8) := by decide +kernel

/-- T9: an empty stream is TRUNCATED, and the draw leaves the position at 0. -/
theorem test_decIdx_T9 : (nextState? (exec (.decIdx .cb12)
    (small .cb12 (tromTable 20 7) .built (portAt [] 0) []))).bind (fun t => (t.port? 0).map Port.statusWord) =
    some 0x00000001#32 := by decide +kernel

/-- T22. -/
theorem test_decQuad_T22 : seen (exec (.decQuad .cb1)
    (small .cb1 (tromTable 42 7) .built (portAt [1,0,1,0, 1,0,0,0] 0) [])) =
    some (0x02010101#32, 0x00000000#32, 0x00000810#32, some 8) := by decide +kernel

/-- T19: the signed midpoint. -/
theorem test_decPair_T19 : seen (exec (.decPair .cb5)
    (small .cb5 (tromTable 42 7) .built (portAt [1,0,1,0, 1,0,0,0] 0) [])) =
    some (0x00000000#32, 0x3F800000#32, 0x00000810#32, some 8) := by decide +kernel

/-- T14. -/
theorem test_decPair_T14 : seen (exec (.decPair .cb7)
    (small .cb7 (tromTable 64 6) .built (portAt [1,1,1,1, 1,1,0] 0) [])) =
    some (0x41563F90#32, 0x41563F90#32, 0x00000710#32, some 7) := by decide +kernel

/-- T25: the escape category in both components, on TROM's table of codebook 11. -/
theorem test_decEsc_T25 : decodeFn (tromTable 289 9) ⟨bits [1,1,0,0, 0,1,1,1, 1,1], 0⟩ = .matched 288 10 ∧
    (escapeValue 288).pack = (0x00100010#32, 0x00000000#32) := by decide +kernel

/-- DEC.ESC on a small table of the same shape: `1 10001` is symbol 18 = (1, 1) (R136, R152). -/
theorem test_decEsc : seen (exec (.decEsc .cb11)
    (small .cb11 (tromTable 20 5) .built (portAt [1, 1,0,0,0,1, 1] 0) [])) =
    some (0x00010001#32, 0x00000000#32, 0x00000610#32, some 6) := by decide +kernel

/-- T12: no offset is subtracted from the index. -/
theorem test_decSf_T12 : seen (exec (.decSf .cb12)
    (small .cb12 (tromTable 62 7) .built (portAt [1,0,1,1, 1,0,1,1] 0) [])) =
    some (0x0000003C#32, 0x00000000#32, 0x00000810#32, some 8) := by decide +kernel

/-- T29: the longest codeword, 19 bits. -/
theorem test_decodeFn_T29 :
    decodeFn trom19Table ⟨bits [1,1,1,1, 1,1,1,1, 1,1,1,1, 1,1,1,0, 1,1,1], 0⟩ = .matched 120 19 := by decide +kernel

/-- T31: the two bits are a prefix of no codeword; T8: the bits are a prefix of symbols 113 to 120. -/
theorem test_decodeFn_T31 : decodeFn trom19Table ⟨bits [1, 0], 0⟩ = .noCodeword ∧
    decodeFn (tromTable 121 7) ⟨bits [1,1,1,1,0], 0⟩ = .truncated := by decide +kernel

/-- B1: the claim. -/
theorem test_build_B1 : statusAndCb (exec (.build .cb12)
    (small .cb12 (tromTable 121 7) .unbuilt (portAt [1] 0) [])) = some (0x00000020#32, 0x01000000#32) := by
  decide +kernel

/-- B3: a second BUILD builds nothing. -/
theorem test_build_B3 : statusAndCb (exec (.build .cb12)
    (small .cb12 (tromTable 121 7) .built (portAt [1] 0) [])) = some (0x00000000#32, 0x02000000#32) := by decide +kernel

/-! ## Steps of the builder, the host and the release -/

/-- B2: the builder on TROM; B4: the builder on TBAD, whose codebook 9 has a length of 20. -/
theorem test_builder : statusAndCb (step (small .cb12 (tromTable 121 7) .building (portAt [1] 0) [.builder .cb12])) =
      some (0x00000000#32, 0x02000000#32) ∧
    statusAndCb (step (small .cb9 { tromTable 169 8 with lens := 20 :: List.replicate 168 9 } .building (portAt [1] 0)
      [.builder .cb9])) = some (0x00000000#32, 0x000C0000#32) := by decide +kernel

/-- B7: an illegal word written to CMD, here by its bus address. -/
theorem test_illegal_B7 : statusAndCb (step (small .cb1 tiny .unbuilt (portAt [1] 0)
    [.write (.bus 0x1000) 32 0x00000000#32])) = some (0x00000004#32, 0x00000000#32) := by decide +kernel

/-- P4 step 4: the release of a port held for a FAULT codebook reports CONFIG and reads no bit. -/
theorem test_release_config : seen (step (small .cb9 tiny .fault
    { portAt [1, 1] 0 with phase := .hold 0x00000094#32 } [.release 0])) =
    some (0x00000000#32, 0x00000000#32, 0x00000003#32, some 0) := by decide +kernel

/-- With nothing scheduled the builder moves by itself, and a finished block rests. -/
theorem test_own_moves : statusAndCb (step (small .cb1 tiny .building (portAt [1] 0) [])) =
      some (0x00000000#32, 0x0000000C#32) ∧
    statusAndCb (step (small .cb1 tiny .built (portAt [1] 0) [])) = some (0x00000000#32, 0x00000008#32) := by
  decide +kernel

/-- A held port reads PENDING = 1 and its old CODE (P2 step 8). -/
theorem test_held_status : Port.statusWord { portAt [] 0 with code := .noCodeword, phase := .hold 0x94#32 } =
    0x00000022#32 := by decide +kernel

/-- The first byte's most significant bit is the first stream bit (R52). -/
theorem test_bytes : bitsOfBytes [0xA1#8] = bits [1,0,1,0, 0,0,0,1] := by decide +kernel

/-- A placed word is issued by the very next step after reset: the command claims its codebook and holds. -/
theorem test_placed_from_reset :
    statusAndCb (step (State.reset.withFetchWord 32 0x000000C6)) = some (0x00000020#32, 0x01000000#32) ∧
    statusAndCb (step (State.reset.withFetchWord 32 0x00000011)) = some (0x00000020#32, 0x00000004#32) := by
  decide +kernel

/-! ## Witnesses: for each statement with hypotheses, concrete values that meet them together, clause by clause -/

/-- The well-formedness hypothesis, at the ends of each opcode's range. -/
theorem witness_DecodeOfEncodeIsIdentity : (Instr.build .cb1).WellFormed ∧ (Instr.decIdx .cb12).WellFormed ∧
    (Instr.decQuad .cb4).WellFormed ∧ (Instr.decPair .cb5).WellFormed ∧ (Instr.decPair .cb10).WellFormed ∧
    (Instr.decEsc .cb11).WellFormed ∧ (Instr.decSf .cb12).WellFormed := by decide

theorem witness_EncodeOfDecodeIsIdentity : decode 0x000000A4#32 = .ok (.decPair .cb10) := by decide +kernel

theorem witness_PseudoCommandsExpand : Codebook.num .cb4 ≤ 4 ∧ 5 ≤ Codebook.num .cb5 ∧ Codebook.num .cb10 ≤ 10 ∧
    13 ≤ 13 := by decide

theorem witness_AssemblyReadsBack : (Instr.decSf .cb12).WellFormed := by decide

/-- A port held for `w`. -/
def heldPort (w : Word) : Port := { portAt [1] 0 with phase := .hold w }

theorem witness_StepRunsDecodedCommand :
    let s := small .cb1 tiny .unbuilt (portAt [1] 0) [.write (.bus 0x1020) 32 0x00000013#32]
    s.inputs = [.write (.bus 0x1020) 32 0x00000013#32] ∧ locate? s.params.regBase (.bus 0x1020) = some (1, 0x00) ∧
    s.port? 1 = some Port.reset ∧ Port.reset.phase = .idle ∧ decode 0x00000013#32 = .ok (.decQuad .cb1) := by
  decide +kernel

theorem witness_StepRunsReleasedCommand :
    let s := small .cb1 tiny .built (heldPort 0x13#32) [.release 0]
    let f := small .cb1 tiny .fault (heldPort 0x13#32) [.release 0]
    s.inputs = [.release 0] ∧ s.port? 0 = some (heldPort 0x13#32) ∧ (heldPort 0x13#32).phase = .hold 0x13#32 ∧
    decode 0x13#32 = .ok (.decQuad .cb1) ∧ s.cb .cb1 = .built ∧ f.cb .cb1 = .fault ∧
    f.port? 0 = some (heldPort 0x13#32) := by decide +kernel

theorem witness_ReleaseWaitsForTheBuild :
    let s := small .cb1 tiny .building (heldPort 0x13#32) [.release 0]
    let u := small .cb1 tiny .unbuilt (heldPort 0x13#32) [.release 0]
    let i := small .cb1 tiny .building (portAt [1] 0) [.release 0]
    s.inputs = [.release 0] ∧ s.port? 0 = some (heldPort 0x13#32) ∧ decode 0x13#32 = .ok (.decQuad .cb1) ∧
    s.cb .cb1 = .building ∧ u.port? 0 = some (heldPort 0x13#32) ∧ u.cb .cb1 = .unbuilt ∧
    i.port? 0 = some (portAt [1] 0) ∧ (portAt [1] 0).phase = .idle := by decide +kernel

theorem witness_IllegalWordReportsIllegal :
    let s := small .cb1 tiny .unbuilt (portAt [1] 0) [.write (.window 0 0x00) 32 0x00000113#32]
    s.inputs = [.write (.window 0 0x00) 32 0x00000113#32] ∧ locate? s.params.regBase (.window 0 0x00) = some (0, 0x00) ∧
    s.port? 0 = some (portAt [1] 0) ∧ (portAt [1] 0).phase = .idle ∧ legal 0x00000113#32 = false := by decide +kernel

theorem witness_IllFormedCommandReportsIllegal :
    let s := small .cb5 tiny .unbuilt (portAt [1] 0) []
    s.port? s.cur = some (portAt [1] 0) ∧ (portAt [1] 0).phase = .idle ∧ ¬ (Instr.decQuad .cb5).WellFormed := by
  decide +kernel

theorem witness_CommandWriteWhileHeldIsRefused :
    let s := small .cb1 tiny .building (heldPort 0x13#32) [.write (.window 0 0x00) 32 0x00000011#32]
    s.inputs = [.write (.window 0 0x00) 32 0x00000011#32] ∧ locate? s.params.regBase (.window 0 0x00) = some (0, 0x00) ∧
    s.port? 0 = some (heldPort 0x13#32) ∧ (heldPort 0x13#32).phase = .hold 0x13#32 := by decide +kernel

theorem witness_DecodeWithoutCursorIsRefused :
    let s := small .cb1 tiny .built Port.reset []
    s.port? s.cur = some Port.reset ∧ Port.reset.phase = .idle ∧ (Instr.decQuad .cb1).WellFormed ∧
    (Instr.decQuad .cb1).readsStream = true ∧ Port.reset.cursor = none := by decide +kernel

/-- One state for each row of the claim, a port with a cursor for a decode and BUILD without one. -/
theorem witness_ClaimFollowsBuildState :
    (small .cb1 tiny .unbuilt (portAt [0] 0) []).cb .cb1 = .unbuilt ∧
    (small .cb1 tiny .building (portAt [0] 0) []).cb .cb1 = .building ∧
    (small .cb1 tiny .fault (portAt [0] 0) []).cb .cb1 = .fault ∧
    (small .cb1 tiny .built (portAt [0] 0) []).cb .cb1 = .built ∧
    (small .cb1 tiny .built (portAt [0] 0) []).port? 0 = some (portAt [0] 0) ∧ (portAt [0] 0).phase = .idle ∧
    (portAt [0] 0).cursor = some ⟨[false], 0⟩ ∧ (Instr.decIdx .cb1).WellFormed ∧
    (Instr.build .cb1).readsStream = false ∧ (Instr.decIdx .cb1).readsStream = true ∧
    ((small .cb1 tiny .built (portAt [0] 0) []).romOf .cb1).prefixFree = true := by decide +kernel

theorem witness_ClaimFollowsBuildState_held_and_illegal :
    (small .cb1 tiny .building (heldPort 0x13#32) []).port? 0 = some (heldPort 0x13#32) ∧
    (heldPort 0x13#32).phase = .hold 0x13#32 ∧ ¬ (Instr.decQuad .cb5).WellFormed := by decide +kernel

/-- `CommandRule` of the four codebook decode commands: an accepted codebook that is FAULT, and a word with the command's OP
that names a codebook of another kind. -/
theorem witness_CommandRule :
    (∀ c ∈ [Codebook.cb4, .cb5, .cb10, .cb11, .cb12],
      (small c tiny .fault (portAt [0] 0) []).port? 0 = some (portAt [0] 0) ∧
      (small c tiny .fault (portAt [0] 0) []).cb c = .fault) ∧
    (portAt [0] 0).phase = .idle ∧ (portAt [0] 0).cursor.isSome = true ∧
    (0x53#32).toNat % 16 = 3 ∧ (∀ c : Codebook, c.num ≤ 4 → 0x53#32 ≠ BitVec.ofNat 32 (c.num * 16 + 3)) ∧
    (0x44#32).toNat % 16 = 4 ∧ (∀ c : Codebook, 5 ≤ c.num ∧ c.num ≤ 10 → 0x44#32 ≠ BitVec.ofNat 32 (c.num * 16 + 4)) ∧
    (0xC5#32).toNat % 16 = 5 ∧ 0xC5#32 ≠ BitVec.ofNat 32 (Codebook.num .cb11 * 16 + 5) ∧
    (0xB6#32).toNat % 16 = 6 ∧ 0xB6#32 ≠ BitVec.ofNat 32 (Codebook.num .cb12 * 16 + 6) :=
  ⟨by decide +kernel, by decide, by decide, by decide, by intro c; cases c <;> decide, by decide,
    by intro c; cases c <;> decide, by decide, by decide, by decide, by decide⟩

theorem witness_BuildOnBuiltCompletes :
    let s := small .cb12 tiny .built Port.reset []
    s.port? s.cur = some Port.reset ∧ Port.reset.phase = .idle ∧ s.cb .cb12 = .built := by decide +kernel

/-- A port ready to decode codebook `c` of the table `tiny` from the bits `ds`. -/
theorem ready_tiny (c : Codebook) (ds : List Nat) :
    ReadyToDecode (small c tiny .built (portAt ds 0) []) c (portAt ds 0) ⟨bits ds, 0⟩ :=
  ⟨rfl, rfl, rfl, Nat.zero_le _, by cases c <;> rfl, by cases c <;> rfl⟩

/-- The three outcomes on the table `tiny`: a match of the last symbol that ends at the last bit, a stream cut short, and
bits no codeword begins with. The table is the one of `ready_tiny`, so each decode statement has a state for each clause. -/
theorem witness_DecodeOutcomes (c : Codebook) :
    (small c tiny .built (portAt [1, 1, 0] 0) []).romOf c = tiny ∧
    decodeFn tiny ⟨bits [1, 1, 0], 0⟩ = .matched 2 3 ∧ decodeFn tiny ⟨bits [1, 1], 0⟩ = .truncated ∧
    decodeFn tiny ⟨bits [1, 1, 1], 0⟩ = .noCodeword := by
  refine ⟨by cases c <;> rfl, by decide +kernel, by decide +kernel, by decide +kernel⟩

/-- DEC.IDX (R106). -/
theorem witness_DecIdxCompletes :
    ReadyToDecode (small .cb12 tiny .built (portAt [1, 1, 0] 0) []) .cb12 (portAt [1, 1, 0] 0) ⟨bits [1, 1, 0], 0⟩ :=
  ready_tiny _ _

/-- DEC.QUAD (R150), at the upper end of its codebooks. -/
theorem witness_DecQuadCompletes : Codebook.num .cb4 ≤ 4 ∧
    ReadyToDecode (small .cb4 tiny .built (portAt [1, 1, 0] 0) []) .cb4 (portAt [1, 1, 0] 0) ⟨bits [1, 1, 0], 0⟩ :=
  ⟨by decide, ready_tiny _ _⟩

/-- DEC.PAIR (R151), at the ends of its three groups of codebooks. -/
theorem witness_DecPairCompletes : 5 ≤ Codebook.num .cb5 ∧ Codebook.num .cb6 ≤ 6 ∧ Codebook.num .cb7 ≤ 8 ∧
    Codebook.num .cb10 ≤ 10 ∧
    ReadyToDecode (small .cb5 tiny .built (portAt [1, 1, 0] 0) []) .cb5 (portAt [1, 1, 0] 0) ⟨bits [1, 1, 0], 0⟩ ∧
    ReadyToDecode (small .cb8 tiny .built (portAt [1, 1] 0) []) .cb8 (portAt [1, 1] 0) ⟨bits [1, 1], 0⟩ ∧
    ReadyToDecode (small .cb9 tiny .built (portAt [1, 1, 1] 0) []) .cb9 (portAt [1, 1, 1] 0) ⟨bits [1, 1, 1], 0⟩ :=
  ⟨by decide, by decide, by decide, by decide, ready_tiny _ _, ready_tiny _ _, ready_tiny _ _⟩

/-- DEC.ESC (R152). -/
theorem witness_DecEscCompletes :
    ReadyToDecode (small .cb11 tiny .built (portAt [1, 1, 0] 0) []) .cb11 (portAt [1, 1, 0] 0) ⟨bits [1, 1, 0], 0⟩ :=
  ready_tiny _ _

/-- DEC.SF (R153): symbol 120 of TROM19 is a match at the end of the range the statement names. -/
theorem witness_DecSfCompletes :
    ReadyToDecode (small .cb12 tiny .built (portAt [1, 1, 0] 0) []) .cb12 (portAt [1, 1, 0] 0) ⟨bits [1, 1, 0], 0⟩ ∧
    decodeFn (tromTable 121 7) ⟨bits [1,1,1,1, 0,1,1,1], 0⟩ = .matched 120 8 :=
  ⟨ready_tiny _ _, by decide +kernel⟩

theorem witness_StreamErrorIsRecoverable : (Instr.decSf .cb12).WellFormed ∧ (Instr.decSf .cb12).readsStream = true ∧
    ReadyToDecode (small .cb12 tiny .built (portAt [1, 1] 0) []) .cb12 (portAt [1, 1] 0) ⟨bits [1, 1], 0⟩ ∧
    decodeFn tiny ⟨bits [1, 1], 0⟩ = .truncated ∧ decodeFn tiny ⟨bits [1, 1, 1], 0⟩ = .noCodeword :=
  ⟨by decide, by decide, ready_tiny _ _, by decide +kernel, by decide +kernel⟩

theorem witness_NotPrefixFreeTableIsRefused :
    let s := small .cb1 clash .built (portAt [1] 0) []
    s.port? s.cur = some (portAt [1] 0) ∧ (portAt [1] 0).phase = .idle ∧ (portAt [1] 0).cursor = some ⟨[true], 0⟩ ∧
    (Instr.decQuad .cb1).WellFormed ∧ (Instr.decQuad .cb1).readsStream = true ∧ s.cb .cb1 = .built ∧
    (s.romOf .cb1).prefixFree = false := by decide +kernel

/-- Each case of the decode function, on `tiny`; and two streams that agree on the next 19 bits, on a checked table. -/
theorem witness_DecodeFunctionCases :
    (present ⟨bits [1, 1, 0], 0⟩ (6, 3) = true ∧ (6, 3) ∈ tiny.words) ∧
    (tiny.words.all (fun x => !present ⟨bits [1, 1], 0⟩ x) = true ∧ cutShort ⟨bits [1, 1], 0⟩ (6, 3) = true) ∧
    (tiny.words.all (fun x => !present ⟨bits [1, 1, 1], 0⟩ x && !cutShort ⟨bits [1, 1, 1], 0⟩ x) = true) ∧
    (tromTable 64 6).check .cb7 = true ∧
    Cursor.tail ⟨bits [0, 1], 0⟩ = Cursor.tail ⟨bits [1, 0, 1], 1⟩ := by decide +kernel

theorem witness_MatchedSymbolIsUnique : tiny.prefixFree = true ∧
    decodeFn tiny ⟨bits [1, 1, 0], 0⟩ = .matched 2 3 := by decide +kernel

/-- The two ends of the lengths: 1 and 19. -/
theorem witness_MatchedLengthIsBounded : trom19Table.check .cb12 = true ∧
    decodeFn trom19Table ⟨bits [0], 0⟩ = .matched 0 1 ∧
    decodeFn trom19Table ⟨bits [1,1,1,1, 1,1,1,1, 1,1,1,1, 1,1,1,0, 1,1,1], 0⟩ = .matched 120 19 := by decide +kernel

theorem witness_CodewordRoundTrip : (tromTable 64 6).check .cb7 = true ∧ (tromTable 64 6).prefixFree = true ∧
    (tromTable 64 6).codes[63]? = some 126 ∧ (tromTable 64 6).lens[63]? = some 7 := by decide +kernel

theorem witness_EmptyStreamIsTruncated : (tromTable 64 6).check .cb7 = true ∧
    Cursor.rem ⟨bits [1, 0], 2⟩ = 0 := by decide +kernel

theorem witness_PeekIsMostSignificantFirst : 3 ≤ Cursor.rem ⟨bits [0, 1, 1, 0], 1⟩ ∧
    Cursor.peek ⟨bits [0, 1, 1, 0], 1⟩ 3 = 6 := by decide +kernel

theorem witness_StreamBitsOfBytes :
    let s := small .cb1 tiny .built Port.reset [.attachBytes 0 [0x80#8] 7 7]
    s.inputs = [.attachBytes 0 [0x80#8] 7 7] ∧ s.port? 0 = some Port.reset ∧ Port.reset.phase = .idle ∧
    7 ≤ 8 * [0x80#8].length ∧ ([0xA1#8, 0x01#8] : List Byte)[15 / 8]? = some 0x01#8 := by decide +kernel

theorem witness_PairMappersFollowTheirRules : 9 / 2 ≤ 4 ∧ 3 < 9 / 2 := by decide

theorem witness_CbStateWordLayout :
    let s := small .cb1 tiny .built (portAt [1] 0) [.read (.window 0 0x10) 32]
    let t := small .cb1 tiny .built (heldPort 0x13#32) [.write (.window 0 0x10) 32 0xFFFFFFFF#32]
    locate? s.params.regBase (.window 0 0x10) = some (0, 0x10) ∧ s.port? 0 = some (portAt [1] 0) ∧
    s.inputs = [.read (.window 0 0x10) 32] ∧ t.port? 0 = some (heldPort 0x13#32) ∧
    t.inputs = [.write (.window 0 0x10) 32 0xFFFFFFFF#32] := by decide +kernel

theorem witness_EscapePairSplitsBySeventeen : 288 < 289 ∧ 0 < 289 := by decide

theorem witness_IquantTableIsCorrectlyRounded : 1 ≤ (16 : Fin 17).val := by decide

theorem witness_AlphabetSizes : Codebook.modulus? .cb9 = some 13 ∧ Codebook.modulus? .cb11 = some 17 := by decide

theorem witness_QuadsAreTheLexicographicEnumeration : Codebook.kind .cb4 = .quad ∧ 80 < 81 := by decide

theorem witness_ResetAbandonsBuildsAndHolds :
    (small .cb1 tiny .building (heldPort 0x13#32) [.reset]).inputs = [.reset] := rfl

theorem witness_WindowsAreThirtyTwoBytesApart : 0x1C < 0x20 ∧ 0x0FFF < 0x1000 := by decide

/-- A valid port: RESULT0 and RESULT1 may be read. -/
def validPort : Port := { portAt [1] 0 with valid := true, consumed := 1#5, result0 := 7#32, result1 := 9#32 }

theorem witness_ReadsReturnRegisters :
    let s := small .cb1 tiny .built validPort [.read (.window 0 0x10) 32]
    let u := small .cb1 tiny .built validPort [.read (.bus 0x1008) 32]
    s.inputs = [.read (.window 0 0x10) 32] ∧ locate? s.params.regBase (.window 0 0x10) = some (0, 0x10) ∧
    s.port? 0 = some validPort ∧ validPort.valid = true ∧ u.inputs = [.read (.bus 0x1008) 32] ∧
    locate? u.params.regBase (.bus 0x1008) = some (0, 0x08) := by decide +kernel

theorem witness_ResultReadWithoutValidFaults :
    let s := small .cb1 tiny .built (portAt [1] 0) [.read (.window 0 0x0C) 32]
    s.inputs = [.read (.window 0 0x0C) 32] ∧ locate? s.params.regBase (.window 0 0x0C) = some (0, 0x0C) ∧
    s.port? 0 = some (portAt [1] 0) ∧ (portAt [1] 0).valid = false := by decide +kernel

theorem witness_WritesToReadOnlyRegistersAreIgnored :
    let s := small .cb1 tiny .building (heldPort 0x13#32) [.write (.window 0 0x10) 32 1#32]
    s.inputs = [.write (.window 0 0x10) 32 1#32] ∧ locate? s.params.regBase (.window 0 0x10) = some (0, 0x10) ∧
    s.port? 0 = some (heldPort 0x13#32) := by decide +kernel

theorem witness_BadAccessesAreRefused :
    let s := small .cb1 tiny .built (portAt [1] 0) [.write (.window 0 0x1C) 32 1#32]
    let u := small .cb1 tiny .built (portAt [1] 0) [.read (.window 0 0x06) 32]
    let v := small .cb1 tiny .built (portAt [1] 0) [.read (.window 0 0x04) 16]
    s.inputs = [.write (.window 0 0x1C) 32 1#32] ∧ locate? s.params.regBase (.window 0 0x1C) = some (0, 0x1C) ∧
    u.inputs = [.read (.window 0 0x06) 32] ∧ locate? u.params.regBase (.window 0 0x06) = some (0, 0x06) ∧
    v.inputs = [.read (.window 0 0x04) 16] := by decide +kernel

theorem witness_CursorActionsFollowTheirRules :
    let s := small .cb1 tiny .built (portAt [1] 0) [.attach 0 (bits [1, 0]) 2]
    let u := small .cb1 tiny .built (portAt [1] 0) [.seek 0 1]
    let h := small .cb1 tiny .building (heldPort 0x13#32) [.seek 0 0]
    s.port? 0 = some (portAt [1] 0) ∧ s.inputs = [.attach 0 (bits [1, 0]) 2] ∧ 2 ≤ (bits [1, 0]).length ∧
    u.inputs = [.seek 0 1] ∧ (portAt [1] 0).cursor = some ⟨[true], 0⟩ ∧ (portAt [1] 0).phase = .idle ∧
    h.port? 0 = some (heldPort 0x13#32) ∧ (heldPort 0x13#32).phase = .hold 0x13#32 ∧
    (heldPort 0x13#32).cursor = some ⟨[true], 0⟩ := by decide +kernel

theorem witness_BuilderPublishesOnce :
    let s := small .cb7 (tromTable 64 6) .building (portAt [1] 0) [.builder .cb7]
    let f := small .cb7 tiny .building (portAt [1] 0) [.builder .cb7]
    s.inputs = [.builder .cb7] ∧ s.cb .cb7 = .building ∧ (s.romOf .cb7).codes.length = 64 ∧
    (s.romOf .cb7).lens.length = 64 ∧ (∀ x ∈ (s.romOf .cb7).words, 1 ≤ x.2 ∧ x.2 ≤ 19 ∧ x.1 < 2 ^ x.2) ∧
    f.cb .cb7 = .building ∧ (f.romOf .cb7).codes.length ≠ 64 ∧ s.cb .cb8 ≠ .building := by decide +kernel

/-- A command that answers a next state, for the statements about one: a decode that matched, and its ports. -/
theorem witness_CommandFrame :
    (nextState? (exec (.decIdx .cb1) (small .cb1 tiny .built (portAt [1, 0] 0) []))).isSome = true ∧
    (nextState? (exec (.decIdx .cb1) (small .cb1 tiny .unbuilt (portAt [1, 0] 0) []))).isSome = true := by
  decide +kernel

theorem witness_CommandMovesCursorForward :
    ((nextState? (exec (.decIdx .cb1) (small .cb1 tiny .built (portAt [1, 0] 0) []))).bind (State.port? · 0)).isSome =
      true ∧
    (small .cb1 tiny .built (portAt [1, 0] 0) []).port? 0 = some (portAt [1, 0] 0) := by decide +kernel

theorem witness_ResultsWrittenOnlyByCompletedDecodes :
    ((nextState? (exec (.build .cb1) (small .cb1 tiny .built (portAt [1, 0] 0) []))).bind (State.port? · 0)).isSome =
      true := by decide +kernel

/-- A step that is no reset answers a next state. -/
theorem witness_BuildStatesMoveOnlyForward :
    (nextState? (step (small .cb1 tiny .building (portAt [1] 0) [.builder .cb1]))).isSome = true ∧
    (small .cb1 tiny .building (portAt [1] 0) [.builder .cb1]).inputs.head? ≠ some .reset := by decide +kernel

theorem witness_CodebooksAreBuiltAtMostOnce :
    Host.Core.run Sys2Proof.core 0 (small .cb1 tiny .built (portAt [1] 0) [.builder .cb1]) =
      .next (small .cb1 tiny .built (portAt [1] 0) [.builder .cb1]) ∧
    Action.reset ∉ (small .cb1 tiny .built (portAt [1] 0) [.builder .cb1]).inputs := ⟨rfl, by decide⟩

theorem witness_ParametersAreConstant :
    (nextState? (step (small .cb1 tiny .building (heldPort 0x13#32) [.reset]))).isSome = true := by decide +kernel

/-- States with the invariant: port 0 is held for a codebook that is BUILDING or FAULT, whose empty table fails the check. -/
theorem inv_small (x : CbState) (hx : x = .building ∨ x = .fault) (inputs : List Action) :
    (small .cb1 ⟨[], []⟩ x (heldPort 0x13#32) inputs).Inv := by
  refine ⟨fun c => by cases c <;> rfl, fun c h => ?_, fun c _ => by cases c <;> rfl, fun q h => ?_⟩
  · rcases hx with rfl | rfl <;> cases c <;> cases h
  · have hq : q = heldPort 0x13#32 ∨ q = Port.reset := by
      change q ∈ [heldPort 0x13#32, Port.reset] at h
      simpa using h
    rcases hq with rfl | rfl
    · refine ⟨fun cur hc => ?_, fun h => (nomatch h), fun _ => rfl, fun w hw => ?_⟩
      · cases hc
        exact Nat.zero_le _
      · cases hw
        exact ⟨.decQuad .cb1, rfl, fun h => (by rcases hx with rfl | rfl <;> cases h), fun _ => rfl⟩
    · exact ⟨fun _ hc => (nomatch hc), fun h => (nomatch h), fun _ => rfl, fun _ hw => (nomatch hw)⟩

theorem witness_StepKeepsInvariant : (small .cb1 ⟨[], []⟩ .fault (heldPort 0x13#32) [.release 0]).Inv ∧
    (nextState? (step (small .cb1 ⟨[], []⟩ .fault (heldPort 0x13#32) [.release 0]))).isSome = true :=
  ⟨inv_small _ (.inr rfl) _, by decide +kernel⟩

theorem witness_ReleaseNeverGetsStuck :
    let s := small .cb1 ⟨[], []⟩ .fault (heldPort 0x13#32) [.release 0]
    s.Inv ∧ s.inputs = [.release 0] ∧ s.port? 0 = some (heldPort 0x13#32) ∧
    (heldPort 0x13#32).phase = .hold 0x13#32 ∧ decode 0x13#32 = .ok (.decQuad .cb1) ∧ s.cb .cb1 = .fault :=
  ⟨inv_small _ (.inr rfl) _, rfl, rfl, rfl, rfl, rfl⟩

/-- Nothing is scheduled while codebook 1 is BUILDING and port 0 is held for it. -/
theorem witness_UnscheduledBlockComesToRest :
    let s := small .cb1 ⟨[], []⟩ .building (heldPort 0x13#32) []
    s.Inv ∧ s.inputs = [] ∧ s.cb .cb1 = .building ∧ s.port? 0 = some (heldPort 0x13#32) :=
  ⟨inv_small _ (.inl rfl) _, rfl, rfl, rfl⟩

/-- Two states that differ in the other port and in the schedule. -/
theorem witness_CommandDependsOnlyOnItsPort :
    SameView (small .cb1 tiny .built (portAt [1, 0] 0) [])
      ((small .cb1 tiny .built (portAt [1, 0] 0) [.reset]).setPort 1 (heldPort 0x13#32)) :=
  ⟨rfl, rfl, rfl, rfl⟩

/-- Two ports that both decode a built codebook. -/
theorem witness_CommandsOnDifferentPortsCommute :
    let s := (small .cb1 tiny .built (portAt [1, 0] 0) []).setPort 1 (portAt [1, 1, 0] 0)
    s.cb .cb1 ≠ .unbuilt ∧
    ((nextState? (exec (.decQuad .cb1) { s with cur := 0 })).bind fun s1 =>
      nextState? (exec (.decIdx .cb1) { s1 with cur := 1 })).isSome = true := by decide +kernel

theorem witness_OneOfTwoPortsClaimsTheBuild :
    let s := (small .cb11 tiny .unbuilt (portAt [0] 0) []).setPort 1 (portAt [1, 1, 0] 0)
    s.port? 0 = some (portAt [0] 0) ∧ s.port? 1 = some (portAt [1, 1, 0] 0) ∧ (portAt [0] 0).phase = .idle ∧
    (portAt [1, 1, 0] 0).phase = .idle ∧ (Instr.decEsc .cb11).WellFormed ∧ (Instr.build .cb11).WellFormed ∧
    (Instr.decEsc .cb11).codebook = (Instr.build .cb11).codebook ∧ (portAt [0] 0).cursor.isSome = true ∧
    s.cb .cb11 = .unbuilt := by decide +kernel

end Sys2Proof.Tests
end

/-! PROOFS. The `CB_STATE` register (R35): the fields of its word, and the steps of a 32-bit register access (R56). -/

namespace Sys2Proof.Machine

/-! ## The fields of the word -/

/-- The fields below `c` are shifted off one by one, and what is left ends with the field of `c`. -/
theorem cbStateWord_field (v : PerBook CbState) (c : Codebook) :
    (cbStateWord v).extractLsb' (2 * c.num) 2 = (v.get c).value := by
  unfold cbStateWord
  cases c <;> iterate rw [BitVec.extractLsb'_append_eq_of_le (by decide)]
  all_goals exact BitVec.extractLsb'_append_eq_right

theorem cbStateWord_reserved_low (v : PerBook CbState) : (cbStateWord v).extractLsb' 0 2 = 0#2 :=
  BitVec.extractLsb'_append_eq_right

theorem cbStateWord_reserved_high (v : PerBook CbState) : (cbStateWord v).extractLsb' 26 6 = 0#6 := by
  unfold cbStateWord
  iterate rw [BitVec.extractLsb'_append_eq_of_le (by decide)]
  rfl

theorem cbStateWord_replicate_unbuilt : cbStateWord (PerBook.replicate .unbuilt) = 0#32 := by decide

/-! ## Register accesses -/

section access
variable {s : State} {a : RegAddr} {rest : List Action} {p off : Nat} {q : Port} {r : Register}

/-- A read whose register has a value answers it to the host and changes nothing of the block (R56). -/
theorem step_read {w : Word} (hin : s.inputs = .read a 32 :: rest)
    (hl : locate? s.params.regBase a = some (p, off)) (ho : off % 4 = 0) (hr : registerAt? off = some r)
    (hq : s.port? p = some q) (hw : readRegister s q r = .ok w) :
    step s = .next { s with inputs := rest, replies := s.replies ++ [w] } := by
  have hres : resolve { s with inputs := rest } a 32 = .register p q r := resolve_eq hl ho hr hq
  have hval : readRegister { s with inputs := rest } q r = .ok w := by cases r <;> exact hw
  rw [step_cons hin]
  simp only [act, readAccess, hres, hval]

/-- A write to a register other than `CMD` is ignored (R56). -/
theorem step_write_ignored {w : Word} (hin : s.inputs = .write a 32 w :: rest)
    (hl : locate? s.params.regBase a = some (p, off)) (ho : off % 4 = 0) (hr : registerAt? off = some r)
    (hq : s.port? p = some q) (hne : r ≠ .cmd) : step s = .next { s with inputs := rest } := by
  have hres : resolve { s with inputs := rest } a 32 = .register p q r := resolve_eq hl ho hr hq
  rw [step_cons hin]
  cases r with
  | cmd => exact absurd rfl hne
  | status | result0 | result1 | cbState => simp only [act, writeAccess, hres]

end access

/-- Settles O40: the fields from the layout of the word, the accesses from the steps of a read and of an ignored write. -/
theorem cbStateWordLayout : Obligations.CbStateWordLayout := by
  refine ⟨fun v => ⟨fun c => ?_, cbStateWord_reserved_low v, cbStateWord_reserved_high v⟩,
    fun s a rest p q hl hq => ⟨fun hin => ?_, fun w hin => ?_⟩, cbStateWord_replicate_unbuilt⟩
  · rw [cbStateWord_field]
    cases v.get c <;> rfl
  · exact step_read hin hl (by decide) rfl hq rfl
  · exact step_write_ignored hin hl (by decide) rfl hq (by decide)

end Sys2Proof.Machine

/-! PROOFS. The command word (R70 to R74, R78): decoder, encoder and `legal` against each other. The decoder is pinned
from both sides: it takes the word of a well-formed command back to it, and a word it accepts has the three fields of
the command it answers, so it is that command's word. A word `legal` accepts has a nonzero OP up to 6 and a CB that
names a codebook, so it too is the word of some command. -/

namespace Sys2Proof

/-! ## Codebook numbers -/

@[simp] theorem Codebook.ofNum?_num (c : Codebook) : Codebook.ofNum? c.num = some c := by
  cases c <;> rfl

theorem Codebook.ofNum?_eq_some_iff {n : Nat} {c : Codebook} : Codebook.ofNum? n = some c ↔ c.num = n := by
  constructor
  · intro h
    unfold Codebook.ofNum? at h
    split at h <;> cases h <;> rfl
  · rintro rfl
    exact c.ofNum?_num

theorem Codebook.num_bounds (c : Codebook) : 1 ≤ c.num ∧ c.num ≤ 12 := by
  cases c <;> decide

theorem Codebook.exists_num_eq {n : Nat} (h1 : 1 ≤ n) (h12 : n ≤ 12) : ∃ c : Codebook, c.num = n := by
  suffices h : ∃ c, Codebook.ofNum? n = some c from h.imp fun _ => Codebook.ofNum?_eq_some_iff.mp
  interval_cases n <;> exact ⟨_, rfl⟩

theorem Codebook.ofNum?_eq_none_of_ge {n : Nat} (h : 13 ≤ n) : Codebook.ofNum? n = none := by
  refine Option.eq_none_iff_forall_ne_some.mpr fun c hc => ?_
  have hn : c.num = n := Codebook.ofNum?_eq_some_iff.mp hc
  have hle : c.num ≤ 12 := c.num_bounds.2
  omega

@[simp] theorem Codebook.mem_all (c : Codebook) : c ∈ Codebook.all := by
  cases c <;> decide

/-! ## The three fields of a word -/

/-- RSV, CB and OP are all of a word (R70). -/
theorem word_eq_of_fields_eq {v w : Word} (hr : rsvField v = rsvField w) (hc : cbField v = cbField w)
    (ho : opField v = opField w) : v = w := by
  have hr := congrArg BitVec.toNat hr
  have hc := congrArg BitVec.toNat hc
  have ho := congrArg BitVec.toNat ho
  simp only [rsvField, cbField, opField, BitVec.extractLsb'_toNat, Nat.shiftRight_eq_div_pow] at hr hc ho
  bv_omega

theorem encode_fields (i : Instr) : Laws.EncodedFields.Statement i :=
  match i with
  | .build c => Laws.EncodedFields.build c
  | .decIdx c => Laws.EncodedFields.decIdx c
  | .decQuad c => Laws.EncodedFields.decQuad c
  | .decPair c => Laws.EncodedFields.decPair c
  | .decEsc c => Laws.EncodedFields.decEsc c
  | .decSf c => Laws.EncodedFields.decSf c

/-- A word with RSV = 0 and the CB and OP of a command is the word of that command. -/
theorem eq_encode_of_fields {w : Word} {i : Instr} (hr : rsvField w = 0#24) (hc : (cbField w).toNat = i.codebook.num)
    (ho : opField w = i.opcode) : w = encode i := by
  obtain ⟨hr', hc', ho', -⟩ := encode_fields i
  exact word_eq_of_fields_eq (hr.trans hr'.symm) (BitVec.eq_of_toNat_eq (hc.trans hc'.symm)) (ho.trans ho'.symm)

/-! ## The decoder -/

@[simp] theorem commandOf?_opcode_codebook (i : Instr) : commandOf? i.opcode.toNat i.codebook = some i := by
  cases i <;> rfl

theorem opcode_codebook_of_commandOf? {op : BitVec 4} {c : Codebook} {i : Instr}
    (h : commandOf? op.toNat c = some i) : i.opcode = op ∧ i.codebook = c := by
  unfold commandOf? at h
  split at h
  case h_7 => cases h
  all_goals
    rename_i hop
    cases h
    exact ⟨BitVec.eq_of_toNat_eq hop.symm, rfl⟩

/-- The decoder on the word of any command, well formed or not (R72). -/
theorem decode_encode (i : Instr) : decode (encode i) = if i.wf then .ok i else .error .wrongKind := by
  obtain ⟨hr, hc, ho, -⟩ := encode_fields i
  simp [decode, hr, hc, ho]

/-- A word the decoder accepts is the word of the command it answers. -/
theorem eq_encode_of_decode {w : Word} {i : Instr} (h : decode w = .ok i) : w = encode i := by
  unfold decode at h
  split at h
  · cases h
  · rename_i hr
    split at h
    · split at h <;> cases h
    · rename_i c hc
      split at h
      · cases h
      · rename_i j hj
        split at h <;> cases h
        obtain ⟨hop, rfl⟩ := opcode_codebook_of_commandOf? hj
        exact eq_encode_of_fields (not_not.mp hr) (Codebook.ofNum?_eq_some_iff.mp hc).symm hop.symm

theorem decode_eq_ok_iff {w : Word} {i : Instr} : decode w = .ok i ↔ w = encode i ∧ i.WellFormed := by
  constructor
  · exact fun h => ⟨eq_encode_of_decode h, Machine.decode_wf h⟩
  · rintro ⟨rfl, hwf⟩
    rw [decode_encode, if_pos hwf]

/-! ## The legal words -/

theorem legal_encode (i : Instr) : legal (encode i) = i.wf := by
  cases i with
  | build c | decIdx c | decQuad c | decPair c | decEsc c | decSf c => cases c <;> rfl

/-- What every legal word has, whatever its opcode (R73). -/
theorem fields_of_legal {w : Word} (h : legal w = true) :
    rsvField w = 0#24 ∧ (1 ≤ (cbField w).toNat ∧ (cbField w).toNat ≤ 12) ∧
      (1 ≤ (opField w).toNat ∧ (opField w).toNat ≤ 6) := by
  simp only [legal, Bool.and_eq_true, beq_iff_eq] at h
  obtain ⟨hr, h⟩ := h
  refine ⟨hr, ?_⟩
  split at h
  case h_7 => cases h
  all_goals
    rename_i hop
    simp only [Bool.and_eq_true, decide_eq_true_eq, beq_iff_eq] at h
    omega

/-- The opcodes 1 to 6 each spell a command on every codebook (R71). -/
theorem exists_command {op : BitVec 4} (h1 : 1 ≤ op.toNat) (h6 : op.toNat ≤ 6) (c : Codebook) :
    ∃ i : Instr, i.opcode = op ∧ i.codebook = c := by
  suffices h : ∃ i, commandOf? op.toNat c = some i from h.imp fun _ => opcode_codebook_of_commandOf?
  generalize op.toNat = n at h1 h6
  interval_cases n <;> exact ⟨_, rfl⟩

theorem legal_iff_exists_encode {w : Word} : legal w = true ↔ ∃ i : Instr, w = encode i ∧ i.WellFormed := by
  constructor
  · intro h
    obtain ⟨hr, ⟨hc1, hc12⟩, ho1, ho6⟩ := fields_of_legal h
    obtain ⟨c, hc⟩ := Codebook.exists_num_eq hc1 hc12
    obtain ⟨i, ho, rfl⟩ := exists_command ho1 ho6 c
    obtain rfl : w = encode i := eq_encode_of_fields hr hc.symm ho.symm
    exact ⟨i, rfl, (legal_encode i).symm.trans h⟩
  · rintro ⟨i, rfl, hwf⟩
    exact (legal_encode i).trans hwf

theorem legal_iff_exists_decode {w : Word} : legal w = true ↔ ∃ i, decode w = .ok i := by
  simp only [decode_eq_ok_iff, legal_iff_exists_encode]

theorem exists_decode_error_of_not_legal {w : Word} (h : legal w = false) : ∃ e, decode w = .error e := by
  cases hd : decode w with
  | error e => exact ⟨e, rfl⟩
  | ok i => exact absurd (legal_iff_exists_decode.mpr ⟨i, hd⟩) (by simp [h])

@[simp] theorem Instr.mem_all (i : Instr) : i ∈ Instr.all := by
  cases i <;> simp [Instr.all]

theorem Instr.mem_legalOnes {i : Instr} : i ∈ Instr.legalOnes ↔ i.WellFormed := by
  simp [Instr.legalOnes]

/-- The words of R78 are the words of the well-formed commands, in the order of R71. -/
theorem legalWordTable_words : Machine.legalWordTable.map Prod.fst = Instr.legalOnes.map encode := by
  decide

theorem legal_iff_mem_table {w : Word} : legal w = true ↔ w ∈ Machine.legalWordTable.map Prod.fst := by
  rw [legal_iff_exists_encode, legalWordTable_words, List.mem_map]
  refine exists_congr fun i => ?_
  rw [Instr.mem_legalOnes, and_comm, eq_comm (a := w)]

/-- Settles O3: the words the decoder accepts, the words `legal` accepts and the words of R78 are each the words of the
well-formed commands. -/
theorem decodeAcceptsExactlyLegalWords : Obligations.DecodeAcceptsExactlyLegalWords :=
  ⟨fun _ => legal_iff_exists_decode, fun _ => legal_iff_mem_table, by decide, rfl⟩

/-! ## The pseudo-commands (R79) -/

theorem Codebook.kind_eq_quad_iff (c : Codebook) : c.kind = .quad ↔ c.num ≤ 4 := by
  cases c <;> decide

theorem Codebook.kind_eq_pair_iff (c : Codebook) :
    c.kind = .pairSigned ∨ c.kind = .pairUnsigned ↔ 5 ≤ c.num ∧ c.num ≤ 10 := by
  cases c <;> decide

@[simp] theorem Pseudo.expand_decode_num (c : Codebook) : (Pseudo.decode c.num).expand = some (decodeCommandOf c) := by
  simp [Pseudo.expand]

/-- Settles O5: `DECODE` of a codebook's number is the command of its kind, and the kind follows from the number. -/
theorem pseudoCommandsExpand : Obligations.PseudoCommandsExpand := by
  refine ⟨fun c hle => ?_, fun c h5 h10 => ?_, rfl, rfl, rfl, fun n hn => ?_, rfl, rfl⟩
  · have hk : c.kind = .quad := c.kind_eq_quad_iff.mpr hle
    rw [Pseudo.expand_decode_num, decodeCommandOf, hk]
  · rw [Pseudo.expand_decode_num, decodeCommandOf]
    obtain hk | hk := c.kind_eq_pair_iff.mpr ⟨h5, h10⟩ <;> rw [hk]
  · simp [Pseudo.expand, Codebook.ofNum?_eq_none_of_ge hn]

end Sys2Proof

namespace Sys2Proof.Machine

/-! ## A write of an illegal word -/

/-- A 32-bit write to the `CMD` offset of a port's window issues the word on that port (R28, R53). -/
theorem step_write_cmd {s : State} {a : RegAddr} {w : Word} {rest : List Action} {p : Nat} {q : Port}
    (hin : s.inputs = .write a 32 w :: rest) (hl : locate? s.params.regBase a = some (p, 0x00))
    (hq : s.port? p = some q) : step s = writeCmd p w { s with inputs := rest } := by
  have hres : resolve { s with inputs := rest } a 32 = .register p q .cmd := resolve_eq hl (by decide) rfl hq
  rw [step_cons hin]
  simp only [act, writeAccess, hres]

/-- On an idle port a completion without a result is `afterNoResult`, which leaves the phase as it is. -/
theorem setPort_reportNoResult {s : State} {q : Port} (e : Code) (hphase : q.phase = .idle) :
    s.setPort s.cur (q.reportNoResult e) = afterNoResult s q e := by
  cases q
  cases hphase
  rfl

/-- Settles O10: the decoder rejects the word, since it is not legal, and a rejected word completes with ILLEGAL. -/
theorem illegalWordReportsIllegal : Obligations.IllegalWordReportsIllegal := by
  intro s a w rest p q hin hl hq hphase hw
  obtain ⟨e, he⟩ := exists_decode_error_of_not_legal hw
  calc step s
      = writeCmd p w { s with inputs := rest } := step_write_cmd hin hl hq
    _ = .next ({ s with inputs := rest, cur := p }.setPort p (q.reportNoResult .illegal)) :=
      writeCmd_error (s := { s with inputs := rest }) hq hphase he
    _ = .next (afterNoResult { s with inputs := rest, cur := p } q .illegal) :=
      congrArg _ (setPort_reportNoResult .illegal hphase)

end Sys2Proof.Machine

/-! PROOFS. The decode function (R104) and the stream error (R108): the three answers of the search over a code table, the
bits it depends on, and what a decode that matched nothing leaves of the block. -/

namespace Sys2Proof.Machine

/-! ## The answers of the decode function -/

section answers
variable {t : CodeTable} {cur : Cursor}

/-- A codeword that is present makes the search stop, at one that is present. -/
theorem decodeFn_of_present (h : ∃ x ∈ t.words, present cur x = true) :
    ∃ i x, t.words[i]? = some x ∧ present cur x = true ∧ decodeFn t cur = .matched i x.2 := by
  obtain ⟨y, hy, hpy⟩ := h
  cases hf : findPresent cur 0 t.words with
  | none => exact absurd hpy (by simp [findPresent_none.mp hf y hy])
  | some r =>
    obtain ⟨j, x, hj, hx, hn, hp⟩ := findPresent_some hf
    refine ⟨j, x, hx, hp, ?_⟩
    simp only [decodeFn, hf, hj, hn, Nat.zero_add]

/-- With no codeword present the answer is a stream error, and `cutShort` chooses which. -/
theorem decodeFn_of_not_present (h : ¬ ∃ x ∈ t.words, present cur x = true) :
    decodeFn t cur = if t.words.any (cutShort cur) then .truncated else .noCodeword := by
  have hf : findPresent cur 0 t.words = none := findPresent_none.mpr (by simpa using h)
  simp only [decodeFn, hf]

end answers

/-! ## The bits the decode function reads -/

section agreement
variable {m : Nat} {cur cur' : Cursor}

/-- Cursors with the same next `m` bits have the same number of bits left, as far as `m` bits can show it. -/
theorem Cursor.min_rem_eq_of_take_eq (h : cur.tail.take m = cur'.tail.take m) :
    min m cur.rem = min m cur'.rem := by
  simpa using congrArg List.length h

theorem Cursor.peek_eq_of_take_eq (h : cur.tail.take m = cur'.tail.take m) {n : Nat} (hn : n ≤ m) :
    cur.peek n = cur'.peek n := by
  have take_n (l : List Bool) : (l.take m).take n = l.take n := by rw [List.take_take, min_eq_left hn]
  unfold Cursor.peek
  rw [← take_n cur.tail, h, take_n]

theorem present_eq_of_take_eq (h : cur.tail.take m = cur'.tail.take m) {x : Nat × Nat} (hx : x.2 ≤ m) :
    present cur x = present cur' x := by
  have hrem : x.2 ≤ cur.rem ↔ x.2 ≤ cur'.rem := by
    have := Cursor.min_rem_eq_of_take_eq h
    omega
  simp only [present, hrem, Cursor.peek_eq_of_take_eq h hx]

/-- A stream that is cut short within the next `m` bits is cut short there at both cursors. -/
theorem cutShort_eq_of_take_eq (h : cur.tail.take m = cur'.tail.take m) {x : Nat × Nat} (hx : x.2 ≤ m) :
    cutShort cur x = cutShort cur' x := by
  have hmin := Cursor.min_rem_eq_of_take_eq h
  by_cases hlt : cur.rem < x.2
  · have hrem : cur'.rem = cur.rem := by omega
    have hpeek : cur.peek cur.rem = cur'.peek cur.rem := Cursor.peek_eq_of_take_eq h (by omega)
    simp only [cutShort, hrem, hpeek]
  · have hlt' : ¬ cur'.rem < x.2 := by omega
    simp only [cutShort, hlt, hlt', decide_false, Bool.false_and]

theorem findPresent_congr {xs : List (Nat × Nat)} (h : ∀ x ∈ xs, present cur x = present cur' x) (k : Nat) :
    findPresent cur k xs = findPresent cur' k xs := by
  induction xs generalizing k with
  | nil => rfl
  | cons x xs ih =>
    obtain ⟨hx, hxs⟩ := List.forall_mem_cons.mp h
    simp only [findPresent, hx, ih hxs]

/-- The decode function over codewords of at most `m` bits depends only on the next `m` bits (R104). -/
theorem decodeFn_eq_of_take_eq {t : CodeTable} (hlen : ∀ x ∈ t.words, x.2 ≤ m)
    (h : cur.tail.take m = cur'.tail.take m) :
    decodeFn t cur = decodeFn t cur' := by
  have hfind : findPresent cur 0 t.words = findPresent cur' 0 t.words :=
    findPresent_congr (fun x hx => present_eq_of_take_eq h (hlen x hx)) 0
  have hcut : t.words.any (cutShort cur) = t.words.any (cutShort cur') := by
    rw [Bool.eq_iff_iff, List.any_eq_true, List.any_eq_true]
    exact exists_congr fun x => and_congr_right fun hx => by rw [cutShort_eq_of_take_eq h (hlen x hx)]
  simp only [decodeFn, hfind, hcut]

end agreement

/-- Settles O23: the answers by whether a codeword is present, and by whether one is cut short; the bits read from the
longest codeword the check lets through, 19 bits. -/
theorem decodeFunctionCases : Obligations.DecodeFunctionCases := by
  simp only [Obligations.DecodeFunctionCases, ← present_iff, ← cutShort_iff]
  refine ⟨fun t cur => ⟨fun h => ?_, fun hno hcut => ?_, fun hno hcut => ?_⟩, fun c t cur cur' hcheck h => ?_⟩
  · obtain ⟨i, x, hx, hp, hd⟩ := decodeFn_of_present h
    obtain ⟨hle, hpeek⟩ := (present_iff cur x).mp hp
    exact ⟨i, x, hx, hle, hpeek, hd⟩
  · rw [decodeFn_of_not_present hno, if_pos (List.any_eq_true.mpr hcut)]
  · rw [decodeFn_of_not_present hno, if_neg (mt List.any_eq_true.mp hcut)]
  · obtain ⟨-, hwords⟩ := CodeTable.check_words hcheck
    exact decodeFn_eq_of_take_eq (fun x hx => (hwords x hx).2.1) h

/-! ## Stream errors -/

/-- A decode command on a port that is ready for it takes the outcome of the decode function (R109). -/
theorem exec_of_readyToDecode {i : Instr} {s : State} {q : Port} {cur : Cursor} (hwf : i.WellFormed)
    (hr : i.readsStream = true) (h : ReadyToDecode s i.codebook q cur) :
    exec i s = .next (s.setPort s.cur (afterDecode s.cur q cur (resultsOf s.params.iquantTable i)
      (decodeFn (s.romOf i.codebook) cur))) := by
  have hcur : i.readsStream = true → q.cursor.isSome = true := fun _ => by rw [h.cursor, Option.isSome_some]
  rw [exec_eq_issue, issue_eq h.port h.idle hwf hcur, h.built, performOf_decode _ hr]
  exact performDecode_eq h.cursor h.prefixFree

/-- Settles O21: both outcomes set the port by `streamError`, whose draw stays within the stream, and `setPort` keeps the
rest of the block. -/
theorem streamErrorIsRecoverable : Obligations.StreamErrorIsRecoverable := by
  intro i s q cur e hwf hr hready houtcome
  have hexec : exec i s = .next (s.setPort s.cur (streamError s.cur q cur e)) := by
    rw [exec_of_readyToDecode hwf hr hready]
    obtain ⟨hd, rfl⟩ | ⟨hd, rfl⟩ := houtcome <;> rw [hd] <;> rfl
  obtain ⟨hlow, hhigh⟩ := drawPosition_bounds s.cur q.draws cur hready.position
  exact ⟨_, streamError s.cur q cur e, drawPosition s.cur q.draws cur, hexec,
    State.port?_setPort_self s s.cur _ hready.port, rfl, rfl, rfl, rfl, rfl, rfl, rfl, hlow, hhigh, rfl, rfl,
    List.length_set, fun _ hne => State.port?_setPort_ne s s.cur _ hne⟩

end Sys2Proof.Machine

/-! PROOFS. The value mappers (R132 to R138): the fold of a signed component, and the digits of an index. -/

namespace Sys2Proof

/-! ## The fold of a signed component (R133, R134) -/

section fold
variable {table : List Word} {m a : Nat}

theorem signedComponent_of_half_le (h : m / 2 ≤ a) : signedComponent table m a = iquant table (a - m / 2) :=
  if_pos h

theorem signedComponent_of_lt_half (h : a < m / 2) :
    signedComponent table m a = negate32 (iquant table (m / 2 - a)) :=
  if_neg h.not_ge

end fold

/-- Settles O32: the signed component by the side of the half its argument is on, the value by the codebook. -/
theorem pairMappersFollowTheirRules : Obligations.PairMappersFollowTheirRules := by
  refine ⟨fun table m a => ⟨signedComponent_of_half_le, signedComponent_of_lt_half⟩,
    fun table c i hc => ?_, fun table c i hc => ?_, fun table c i hc => ?_⟩
  all_goals obtain rfl | rfl := hc <;> rfl

/-! ## The digits of an index (R136, R137) -/

/-- Settles O34: the components are the quotient and the remainder by 17, and the quotient stays below 17. -/
theorem escapePairSplitsBySeventeen : Obligations.EscapePairSplitsBySeventeen := by
  intro table cw hcw
  have hquot : cw / 17 < 17 := Nat.div_lt_of_lt_mul hcw
  have hrem : cw % 17 < 17 := Nat.mod_lt cw (by decide)
  exact ⟨cw / 17, cw % 17, Nat.le_of_lt_succ hquot, Nat.le_of_lt_succ hrem, (Nat.div_add_mod cw 17).symm, rfl⟩

theorem valueOf_of_kind_quad {c : Codebook} (hk : c.kind = .quad) (table : List Word) (i : Nat) :
    valueOf table c i = quadValue i := by
  simp only [valueOf, hk]

/-- The last three ternary digits of an index, with what is left above them, make up the index. -/
theorem ternary_digits (i : Nat) : i = 27 * (i / 27) + 9 * (i / 9 % 3) + 3 * (i / 3 % 3) + i % 3 := by
  omega

/-- Settles O35: the components are the four ternary digits of the index, the first below 3 as the index is below 81. -/
theorem quadsAreTheLexicographicEnumeration : Obligations.QuadsAreTheLexicographicEnumeration := by
  intro table c i hk hi
  have hfirst : i / 27 < 3 := Nat.div_lt_of_lt_mul hi
  have hdigit (n : Nat) : n % 3 ≤ 2 := Nat.le_of_lt_succ (Nat.mod_lt n (by decide))
  exact ⟨i / 27, i / 9 % 3, i / 3 % 3, i % 3, Nat.le_of_lt_succ hfirst, hdigit _, hdigit _, hdigit _,
    ternary_digits i, valueOf_of_kind_quad hk table i⟩

end Sys2Proof

/-! PROOFS. The codebook decode commands (R150, R152, R153): the part of each rule that only names its words and its
codebooks, the completion of a decode as the rules write it, and the packing of a scale-factor index. -/

namespace Sys2Proof

/-! ## The words of one command -/

theorem Instr.eq_of_opcode_codebook {i j : Instr} (ho : i.opcode = j.opcode) (hc : i.codebook = j.codebook) : i = j := by
  have hi := commandOf?_opcode_codebook i
  rw [ho, hc, commandOf?_opcode_codebook j] at hi
  exact (Option.some.inj hi).symm

theorem encode_eq_ofNat (i : Instr) : encode i = BitVec.ofNat 32 (i.codebook.num * 16 + i.opcode.toNat) := by
  obtain ⟨-, -, -, hword⟩ := encode_fields i
  rw [Nat.mul_comm, ← hword, BitVec.ofNat_toNat, BitVec.setWidth_eq]

/-- The OP field is the low hexadecimal digit of the word (R70). -/
theorem encode_toNat_mod (i : Instr) : (encode i).toNat % 16 = i.opcode.toNat := by
  obtain ⟨-, -, -, hword⟩ := encode_fields i
  have hop : i.opcode.toNat < 2 ^ 4 := i.opcode.isLt
  omega

end Sys2Proof

namespace Sys2Proof.Machine

/-! ## The rule of a decode command beside its result -/

/-- A well-formed command on an idle port, with the cursor it needs, completes with CONFIG on a FAULT codebook (R175). -/
theorem exec_of_fault {i : Instr} {s : State} {q : Port} (hwf : i.WellFormed) (hq : s.port? s.cur = some q)
    (hphase : q.phase = .idle) (hcur : i.readsStream = true → q.cursor.isSome = true)
    (hf : s.cb i.codebook = .fault) : exec i s = .next (afterNoResult s q .config) := by
  rw [exec_eq_issue, issue_eq hq hphase hwf hcur, hf]
  exact congrArg _ (setPort_reportNoResult .config hphase)

/-- `mk` spells the commands of one opcode, of which those on the accepted codebooks are well formed. A legal word with
that OP is the word of some `mk c`, and then `c` is accepted. -/
theorem commandRule_of_wf_iff {mk : Codebook → Instr} {accepts : Codebook → Prop} {op : BitVec 4}
    (hop : ∀ c, (mk c).opcode = op) (hcb : ∀ c, (mk c).codebook = c) (hwf : ∀ c, (mk c).WellFormed ↔ accepts c) :
    CommandRule mk accepts op.toNat := by
  have hword (c : Codebook) : encode (mk c) = BitVec.ofNat 32 (c.num * 16 + op.toNat) := by
    rw [encode_eq_ofNat, hop, hcb]
  refine ⟨fun c hc => ⟨hword c, ?_⟩, fun w hw hne => Bool.eq_false_iff.mpr fun hlegal => ?_,
    fun c s q hc hq hphase hcur hf => ?_⟩
  · rw [← hword, decode_encode, if_pos ((hwf c).mpr hc)]
  · obtain ⟨i, rfl, hi⟩ := legal_iff_exists_encode.mp hlegal
    have hiop : i.opcode = op := BitVec.eq_of_toNat_eq ((encode_toNat_mod i).symm.trans hw)
    have himk : i = mk i.codebook := Instr.eq_of_opcode_codebook (hiop.trans (hop _).symm) (hcb _).symm
    rw [himk] at hi
    exact hne i.codebook ((hwf _).mp hi) ((congrArg encode himk).trans (hword _))
  · exact exec_of_fault ((hwf c).mpr hc) hq hphase (fun _ => hcur) (by rw [hcb, hf])

theorem commandRule_decQuad : CommandRule .decQuad (fun c => c.num ≤ 4) 0x3 :=
  commandRule_of_wf_iff (op := 0x3#4) (fun _ => rfl) (fun _ => rfl) fun c => by
    rw [← c.kind_eq_quad_iff]
    exact beq_iff_eq

theorem commandRule_decEsc : CommandRule .decEsc (fun c => c = .cb11) 0x5 :=
  commandRule_of_wf_iff (op := 0x5#4) (fun _ => rfl) (fun _ => rfl) fun c => by cases c <;> decide

theorem commandRule_decSf : CommandRule .decSf (fun c => c = .cb12) 0x6 :=
  commandRule_of_wf_iff (op := 0x6#4) (fun _ => rfl) (fun _ => rfl) fun c => by cases c <;> decide

/-! ## The completion of a decode command -/

section completion
variable {i : Instr} {s : State} {q : Port} {cur : Cursor}

/-- On an idle port a decode that matched is `afterMatch`, which leaves the phase as it is. -/
theorem setPort_decodeDone (n : Nat) (r : Word × Word) (hphase : q.phase = .idle) :
    s.setPort s.cur (decodeDone q cur n r) = afterMatch s q cur n r.1 r.2 := by
  cases q
  cases hphase
  rfl

/-- The drawn position is one R108 allows. -/
theorem isStreamError_streamError (e : Code) (hphase : q.phase = .idle) (hpos : cur.pos ≤ cur.bits.length) :
    IsStreamError s q cur e (.next (s.setPort s.cur (streamError s.cur q cur e))) := by
  obtain ⟨hlow, hhigh⟩ := drawPosition_bounds s.cur q.draws cur hpos
  refine ⟨drawPosition s.cur q.draws cur, hlow, hhigh, ?_⟩
  cases q
  cases hphase
  rfl

/-- What a decode command does on a port that is ready for it, for each answer of the decode function: the results are
the command's own, the rest is common to all (R109). -/
theorem exec_of_decodeFn (hwf : i.WellFormed) (hr : i.readsStream = true) (h : ReadyToDecode s i.codebook q cur) :
    (∀ k n, decodeFn (s.romOf i.codebook) cur = .matched k n →
      exec i s = .next (afterMatch s q cur n (resultsOf s.params.iquantTable i k n).1
        (resultsOf s.params.iquantTable i k n).2)) ∧
    (decodeFn (s.romOf i.codebook) cur = .truncated → IsStreamError s q cur .truncated (exec i s)) ∧
    (decodeFn (s.romOf i.codebook) cur = .noCodeword → IsStreamError s q cur .noCodeword (exec i s)) := by
  rw [exec_of_readyToDecode hwf hr h]
  refine ⟨fun k n hd => ?_, fun hd => ?_, fun hd => ?_⟩ <;> rw [hd]
  · exact congrArg _ (setPort_decodeDone n _ h.idle)
  · exact isStreamError_streamError .truncated h.idle h.position
  · exact isStreamError_streamError .noCodeword h.idle h.position

end completion

/-! ## The three commands -/

/-- Settles O17: the packed components of `quadValue` are the digits the rule lists. -/
theorem decQuadCompletes : Obligations.DecQuadCompletes := by
  refine ⟨commandRule_decQuad, fun c s q cur hc h => ?_⟩
  have hwf : (Instr.decQuad c).WellFormed := beq_iff_eq.mpr (c.kind_eq_quad_iff.mpr hc)
  exact exec_of_decodeFn hwf rfl h

/-- Settles O19: the packed components of `escapeValue` are the remainder and the quotient by 17. -/
theorem decEscCompletes : Obligations.DecEscCompletes :=
  ⟨commandRule_decEsc, fun _ _ _ h => exec_of_decodeFn (i := .decEsc .cb11) rfl rfl h⟩

/-- An index of the alphabet fits the eight bits of its value, so nothing of it is lost (R138, R153). -/
theorem sfValue_pack {i : Nat} (hi : i ≤ 120) : (sfValue i).pack = (BitVec.ofNat 32 i, 0#32) := by
  have hword : BitVec.zeroExtend 32 (BitVec.ofNat 8 i) = BitVec.ofNat 32 i :=
    BitVec.setWidth_ofNat_of_le_of_lt (by decide) (by omega)
  rw [sfValue, Value.pack, hword]

/-- Settles O20: the packing of an index up to 120 is the index itself. -/
theorem decSfCompletes : Obligations.DecSfCompletes := by
  refine ⟨commandRule_decSf, fun s q cur h => ?_⟩
  obtain ⟨hmatch, herrors⟩ := exec_of_decodeFn (i := .decSf .cb12) rfl rfl h
  refine ⟨fun k n hd hk => ?_, herrors⟩
  rw [hmatch k n hd, resultsOf, sfValue_pack hk]

end Sys2Proof.Machine

/-! PROOFS. Hazards of the host (R195): a write of `CMD` to a port that is held. -/

namespace Sys2Proof.Machine

/-- A held port takes no command, whatever the word (R195). -/
theorem writeCmd_hold {p : Nat} {w v : Word} {s : State} {q : Port} (hq : s.port? p = some q)
    (hphase : q.phase = .hold v) : writeCmd p w s = .refused .cmdWhileHold := by
  simp only [writeCmd, hq, hphase]

/-- Settles O12: the step issues the word on the port, which refuses it as it is held, before the word is decoded. -/
theorem commandWriteWhileHeldIsRefused : Obligations.CommandWriteWhileHeldIsRefused := by
  intro s a w v rest p q hin hl hq hphase
  calc step s
      = writeCmd p w { s with inputs := rest } := step_write_cmd hin hl hq
    _ = .refused .cmdWhileHold := writeCmd_hold (s := { s with inputs := rest }) hq hphase

end Sys2Proof.Machine

/-! PROOFS. The command word (R70 to R78) and the fixed tables of R22, R130 and R135. -/

namespace Sys2Proof

/-! ## Encoding and decoding -/

/-- Settles O1: the word of a well-formed command is one the decoder takes back. -/
theorem decodeOfEncodeIsIdentity : Obligations.DecodeOfEncodeIsIdentity :=
  fun _ hwf => decode_eq_ok_iff.mpr ⟨rfl, hwf⟩

/-- Settles O2: an accepted word has the three fields of its command, so it is that command's word. -/
theorem encodeOfDecodeIsIdentity : Obligations.EncodeOfDecodeIsIdentity := by
  intro w i h
  obtain ⟨hw, hwf⟩ := decode_eq_ok_iff.mp h
  exact ⟨hw.symm, hwf⟩

/-- The table of R78 lists the well-formed commands, each beside its word. -/
theorem legalWordTable_eq_map : Machine.legalWordTable = Instr.legalOnes.map fun i => (encode i, i) := by
  decide

/-- Settles O4: an entry of the table is a well-formed command beside its word, which decodes to it. -/
theorem listedWordsDecode : Obligations.ListedWordsDecode := by
  have hlisted : ∀ x ∈ Machine.legalWordTable, decode x.1 = .ok x.2 := by
    rw [legalWordTable_eq_map]
    intro x hx
    obtain ⟨i, hi, rfl⟩ := List.mem_map.mp hx
    exact decode_eq_ok_iff.mpr ⟨rfl, Instr.mem_legalOnes.mp hi⟩
  exact ⟨hlisted, hlisted (_, _) (by decide), hlisted (_, _) (by decide), hlisted (_, _) (by decide),
    hlisted (_, _) (by decide), hlisted (_, _) (by decide), hlisted (_, _) (by decide)⟩

/-! ## The assembler (R77) -/

/-- The texts of the 36 commands are distinct. -/
theorem asm_legalOnes_nodup : (Instr.legalOnes.map Instr.asm).Nodup := by
  decide

/-- Settles O6: the search finds a well-formed command with the given text, and the text tells the command. -/
theorem assemblyReadsBack : Obligations.AssemblyReadsBack := by
  intro i hwf
  have hi : i ∈ Instr.legalOnes := Instr.mem_legalOnes.mpr hwf
  cases hfind : assemble? i.asm with
  | none =>
    have hmiss := List.find?_eq_none.mp hfind i hi
    simp at hmiss
  | some j =>
    have hj : j ∈ Instr.legalOnes := List.mem_of_find?_eq_some hfind
    have hasm : j.asm = i.asm := by simpa using List.find?_some hfind
    rw [List.inj_on_of_nodup_map asm_legalOnes_nodup hj hi hasm]

/-! ## Alphabets, inverse quantization and signed components -/

/-- Settles O36: the numbers and the lists from the lemmas on codebook numbers, the sizes codebook by codebook. -/
theorem alphabetSizes : Obligations.AlphabetSizes := by
  refine ⟨rfl, fun c m hm => ?_, fun c => ?_, fun c => ⟨c.mem_all, c.ofNum?_num, c.num_bounds⟩⟩
  · cases c <;> cases hm <;> rfl
  · cases c <;> decide

/-- Settles O30: the entries of the table are 17 fixed words, so each bound is an inequality of numerals. -/
theorem iquantTableIsCorrectlyRounded : Obligations.IquantTableIsCorrectlyRounded :=
  ⟨rfl, by decide +kernel, by decide +kernel, rfl⟩

/-- Settles O31, by evaluating the 17 entries. -/
theorem iquantExactPointsAndOrder : Obligations.IquantExactPointsAndOrder :=
  ⟨rfl, rfl, rfl, by decide, by decide⟩

/-- Settles O33, by evaluating the nine components. -/
theorem signedComponentsOfNine : Obligations.SignedComponentsOfNine := by
  unfold Obligations.SignedComponentsOfNine
  decide

end Sys2Proof

/-! PROOFS. The stream: bits as numbers (R10), bytes as bits (R52), and what a match of the decode function says over a
table that satisfies `prefixFree` or passed the check (R110 to R112). Two codewords present at one cursor are both read
from its next bits, so one begins with the other: on a `prefixFree` table they are one symbol's. -/

namespace Sys2Proof.Machine

/-! ## Bits most significant first (R10) -/

/-- A bit list is the sum of its bits, each with the weight of the bits after it. -/
theorem bitsToNat_eq_sum (bs : List Bool) :
    bitsToNat bs = ((List.range bs.length).map fun k => (bs.getD k false).toNat * 2 ^ (bs.length - 1 - k)).sum := by
  induction bs with
  | nil => rfl
  | cons b bs ih =>
    have hsplit : bitsToNat (b :: bs) = b.toNat * 2 ^ bs.length + bitsToNat bs := by
      rw [← List.singleton_append, bitsToNat_append, bitsToNat_singleton]
    have hweight (k : Nat) : bs.length - 1 - k = bs.length - (k + 1) := by omega
    rw [hsplit, ih, List.length_cons, List.range_succ_eq_map, List.map_cons, List.sum_cons, List.map_map]
    simp only [Function.comp_def, List.getD_cons_zero, List.getD_cons_succ, Nat.succ_eq_add_one, hweight,
      Nat.add_sub_cancel, Nat.sub_zero]

/-- The bits that `peek n` reads are those at the positions from `pos` on. -/
theorem Cursor.getD_take_tail (cur : Cursor) {n k : Nat} (hk : k < n) :
    (cur.tail.take n).getD k false = cur.bits.getD (cur.pos + k) false := by
  simp [List.getD_eq_getElem?_getD, hk, Cursor.tail]

/-- Settles O28: the next `n` bits are a list of `n` bits, so the sum of its bits is R10's. -/
theorem peekIsMostSignificantFirst : Obligations.PeekIsMostSignificantFirst := by
  refine ⟨fun cur n hn => ?_, fun cur n => ⟨cur.advance_bits n, cur.advance_pos n⟩⟩
  have hlen : (cur.tail.take n).length = n := by
    rw [List.length_take, Cursor.length_tail, min_eq_left hn]
  rw [Cursor.peek, bitsToNat_eq_sum, hlen]
  refine congrArg List.sum (List.map_congr_left fun k hk => ?_)
  rw [Cursor.getD_take_tail cur (List.mem_range.mp hk)]

/-! ## Bytes in stream order (R52) -/

/-- Bit `k` of the `n`-bit representation is the number's bit `n - 1 - k` (R13). -/
theorem natToBits_getElem? (v : Nat) {n k : Nat} (hk : k < n) :
    (natToBits v n)[k]? = some (v.testBit (n - 1 - k)) := by
  induction n generalizing k with
  | zero => omega
  | succ n ih =>
    cases k with
    | zero =>
      rw [natToBits, List.getElem?_cons_zero, Nat.testBit_eq_decide_div_mod_eq]
      rfl
    | succ k =>
      have hindex : n + 1 - 1 - (k + 1) = n - 1 - k := by omega
      rw [natToBits, List.getElem?_cons_succ, ih (by omega), hindex]

theorem bitsOfBytes_length (bytes : List Byte) : (bitsOfBytes bytes).length = 8 * bytes.length := by
  induction bytes with
  | nil => rfl
  | cons b bs ih =>
    simp only [bitsOfBytes, List.length_append, natToBits_length, ih, List.length_cons]
    omega

theorem bitsOfBytes_getElem? {bytes : List Byte} {k : Nat} {b : Byte} (h : bytes[k / 8]? = some b) :
    (bitsOfBytes bytes)[k]? = some (b.getLsbD (7 - k % 8)) := by
  induction bytes generalizing k with
  | nil => simp at h
  | cons x xs ih =>
    rw [bitsOfBytes]
    by_cases hk : k < 8
    · rw [Nat.div_eq_of_lt hk, List.getElem?_cons_zero, Option.some.injEq] at h
      rw [List.getElem?_append_left (by simpa using hk), natToBits_getElem? _ hk, Nat.mod_eq_of_lt hk,
        BitVec.testBit_toNat, h]
    · have hdiv : k / 8 = (k - 8) / 8 + 1 := by omega
      have hmod : (k - 8) % 8 = k % 8 := by omega
      rw [hdiv, List.getElem?_cons_succ] at h
      rw [List.getElem?_append_right (by simpa using hk), natToBits_length, ih h, hmod]

/-- Bytes that hold `len` bits are attached as their first `len` bits (R52). -/
theorem attachBytes_eq {p len pos : Nat} {bytes : List Byte} {s : State} (h : len ≤ 8 * bytes.length) :
    attachBytes p bytes len pos s = changeCursor p ((bitsOfBytes bytes).take len) pos s :=
  if_pos h

/-- Settles O29: the bits by induction on the bytes; the action is a change of the cursor to the first `len` of them. -/
theorem streamBitsOfBytes : Obligations.StreamBitsOfBytes := by
  refine ⟨bitsOfBytes_length, fun bytes k b h => bitsOfBytes_getElem? h,
    fun s rest p len pos bytes q hin hq hphase hlen hpos => ?_⟩
  have hpos' : pos ≤ ((bitsOfBytes bytes).take len).length := by
    rwa [List.length_take, bitsOfBytes_length, min_eq_left hlen]
  calc step s
      = attachBytes p bytes len pos { s with inputs := rest } := step_cons hin
    _ = changeCursor p ((bitsOfBytes bytes).take len) pos { s with inputs := rest } := attachBytes_eq hlen
    _ = _ := changeCursor_eq hq hphase hpos'

/-! ## A match on a `prefixFree` table -/

section presence
variable {cur : Cursor}

/-- Of two codewords present at a cursor the longer begins with the shorter (R13). -/
theorem isPrefixOf_of_present {x y : Nat × Nat} (hx : present cur x = true) (hy : present cur y = true)
    (hle : x.2 ≤ y.2) : isPrefixOf x y = true := by
  obtain ⟨-, hpx⟩ := (present_iff cur x).mp hx
  obtain ⟨hyrem, hpy⟩ := (present_iff cur y).mp hy
  simp only [isPrefixOf, Bool.and_eq_true, decide_eq_true_eq, beq_iff_eq]
  exact ⟨hle, by rw [← hpy, Cursor.peek_div cur hle hyrem, hpx]⟩

/-- On a `prefixFree` table at most one symbol's codeword is present (R110). -/
theorem symbol_eq_of_present {t : CodeTable} (hfree : t.prefixFree = true) {i j : Nat} {x y : Nat × Nat}
    (hi : t.words[i]? = some x) (hj : t.words[j]? = some y) (hx : present cur x = true)
    (hy : present cur y = true) : i = j := by
  by_contra hne
  obtain hle | hle := Nat.le_total x.2 y.2
  · have hno := prefixFreeWords_get hfree i j x y hne hi hj
    exact Bool.false_ne_true (hno.symm.trans (isPrefixOf_of_present hx hy hle))
  · have hno := prefixFreeWords_get hfree j i y x (Ne.symm hne) hj hi
    exact Bool.false_ne_true (hno.symm.trans (isPrefixOf_of_present hy hx hle))

/-- On a `prefixFree` table the symbol whose codeword is present is the one matched. -/
theorem decodeFn_eq_matched {t : CodeTable} (hfree : t.prefixFree = true) {i : Nat} {x : Nat × Nat}
    (hi : t.words[i]? = some x) (hx : present cur x = true) : decodeFn t cur = .matched i x.2 := by
  obtain ⟨j, y, hj, hy, hmatch⟩ := decodeFn_of_present ⟨x, List.mem_of_getElem? hi, hx⟩
  obtain rfl : i = j := symbol_eq_of_present hfree hi hj hx hy
  obtain rfl : x = y := Option.some.inj (hi.symm.trans hj)
  exact hmatch

end presence

/-- Settles O24: the matched codeword is present, and it is the only one. -/
theorem matchedSymbolIsUnique : Obligations.MatchedSymbolIsUnique := by
  intro t cur i n hfree hmatch
  obtain ⟨x, hx, hn, hpx⟩ := decodeFn_matched hmatch
  exact ⟨x, hx, hn, fun j y hy hle hpeek =>
    symbol_eq_of_present hfree hy hx ((present_iff cur y).mpr ⟨hle, hpeek⟩) hpx⟩

/-- A number that fits `len` bits is present where its representation stands (R13). -/
theorem present_natToBits {code len : Nat} (hcode : code < 2 ^ len) (rest : List Bool) :
    present ⟨natToBits code len ++ rest, 0⟩ (code, len) = true := by
  refine (present_iff _ _).mpr ⟨by simp [Cursor.rem], ?_⟩
  have htake : (natToBits code len ++ rest).take len = natToBits code len :=
    List.take_left' (natToBits_length code len)
  rw [Cursor.peek, Cursor.tail, List.drop_zero, htake, bitsToNat_natToBits, Nat.mod_eq_of_lt hcode]

/-- Settles O26: the codeword is present at its own bits, and on a `prefixFree` table that is the match. -/
theorem codewordRoundTrip : Obligations.CodewordRoundTrip := by
  intro c t i code len rest hcheck hfree hcodes hlens
  have hword : t.words[i]? = some (code, len) := CodeTable.words_getElem?.mpr ⟨hcodes, hlens⟩
  obtain ⟨-, hrange⟩ := CodeTable.check_words hcheck
  obtain ⟨-, -, hcode⟩ := hrange _ (List.mem_of_getElem? hword)
  exact decodeFn_eq_matched hfree hword (present_natToBits hcode rest)

/-! ## A match on a checked table -/

/-- What a match on a table that passed the check consumes (R110, R112). -/
theorem length_bounds_of_matched {c : Codebook} {t : CodeTable} {cur : Cursor} {i n : Nat}
    (hcheck : t.check c = true) (h : decodeFn t cur = .matched i n) :
    1 ≤ n ∧ n ≤ 19 ∧ n ≤ cur.rem := by
  obtain ⟨x, hx, rfl, hpx⟩ := decodeFn_matched h
  obtain ⟨-, hrange⟩ := CodeTable.check_words hcheck
  obtain ⟨hlow, hhigh, -⟩ := hrange x (List.mem_of_getElem? hx)
  exact ⟨hlow, hhigh, ((present_iff cur x).mp hpx).1⟩

/-- CONSUMED holds any length the check accepts (R33). -/
theorem toNat_consumed {n : Nat} (h : n ≤ 19) : (BitVec.ofNat 5 n).toNat = n := by
  rw [BitVec.toNat_ofNat, Nat.mod_eq_of_lt (by omega)]

/-- Settles O25: the matched codeword is an entry of the table, whose length the check bounds. -/
theorem matchedLengthIsBounded : Obligations.MatchedLengthIsBounded := by
  intro c t cur i n hcheck hmatch
  obtain ⟨hlow, hhigh, hrem⟩ := length_bounds_of_matched hcheck hmatch
  obtain ⟨x, hx, -, -⟩ := decodeFn_matched hmatch
  obtain ⟨hlength, -⟩ := CodeTable.check_words hcheck
  have hi : i < t.words.length := (List.getElem?_eq_some_iff.mp hx).1
  exact ⟨hlength ▸ hi, hlow, hhigh, hrem, toNat_consumed hhigh⟩

theorem Cursor.peek_zero (cur : Cursor) : cur.peek 0 = 0 := rfl

theorem alphabet_pos (c : Codebook) : 0 < c.alphabet := by
  cases c <;> decide

/-- Settles O27: a codeword has at least one bit, so none is present, and any of them is cut short by the empty rest. -/
theorem emptyStreamIsTruncated : Obligations.EmptyStreamIsTruncated := by
  intro c t cur hcheck hrem
  obtain ⟨hlength, hrange⟩ := CodeTable.check_words hcheck
  have hnone : ¬ ∃ x ∈ t.words, present cur x = true := by
    rintro ⟨x, hx, hpx⟩
    have hle : x.2 ≤ cur.rem := ((present_iff cur x).mp hpx).1
    have hlow : 1 ≤ x.2 := (hrange x hx).1
    omega
  obtain ⟨x, hx⟩ := List.exists_mem_of_length_pos (hlength ▸ alphabet_pos c)
  obtain ⟨hlow, -, hcode⟩ := hrange x hx
  have hcut : cutShort cur x = true := by
    refine (cutShort_iff cur x).mpr ⟨by omega, ?_⟩
    rw [hrem, Cursor.peek_zero, Nat.sub_zero, Nat.div_eq_of_lt hcode]
  rw [decodeFn_of_not_present hnone, if_pos (List.any_eq_true.mpr ⟨x, hx, hcut⟩)]

end Sys2Proof.Machine

/-! PROOFS. What one command does (R103, R178): a lemma for each row of the claim, from which the rules of the single
commands follow, and one inversion, `exec_next_portAfter`, from which the frames follow. -/

namespace Sys2Proof.Machine

/-! ## The rows of the claim -/

section rows
variable {i : Instr} {s : State} {q : Port}

theorem exec_of_no_port (hq : s.port? s.cur = none) : exec i s = .refused .noSuchPort := by
  simp only [exec_eq_issue, issue, hq]

/-- A held port takes no command (R195). -/
theorem exec_of_hold {w : Word} (hq : s.port? s.cur = some q) (hphase : q.phase = .hold w) :
    exec i s = .refused .cmdWhileHold := by
  simp only [exec_eq_issue, issue, hq, hphase]

variable (hq : s.port? s.cur = some q) (hphase : q.phase = .idle)
include hq hphase

/-- A term that no legal word spells completes with ILLEGAL (R174; log 14). -/
theorem exec_of_not_wf (hwf : ¬ i.WellFormed) : exec i s = .next (afterNoResult s q .illegal) := by
  rw [← setPort_reportNoResult .illegal hphase, exec_eq_issue]
  simp only [issue, hq, hphase, if_pos (Bool.eq_false_iff.mpr hwf)]

/-- A decode command needs a cursor (R196; log 11). -/
theorem exec_of_no_cursor (hwf : i.WellFormed) (hr : i.readsStream = true) (hcur : q.cursor = none) :
    exec i s = .refused .noCursor := by
  rw [exec_eq_issue]
  simp only [issue, hq, hphase, hwf, hr, hcur, Bool.true_eq_false, if_false, Option.isNone_none, Bool.and_self, if_true]

variable (hwf : i.WellFormed) (hcur : i.readsStream = true → q.cursor.isSome = true)
include hwf hcur

theorem exec_of_unbuilt (h : s.cb i.codebook = .unbuilt) :
    exec i s = .next ((s.setCb i.codebook .building).setPort s.cur (q.holdOn (encode i))) := by
  rw [exec_eq_issue, issue_eq hq hphase hwf hcur, h]

theorem exec_of_building (h : s.cb i.codebook = .building) :
    exec i s = .next (s.setPort s.cur (q.holdOn (encode i))) := by
  rw [exec_eq_issue, issue_eq hq hphase hwf hcur, h]

theorem exec_of_built (h : s.cb i.codebook = .built) : exec i s = performOf s.params.iquantTable i s q := by
  rw [exec_eq_issue, issue_eq hq hphase hwf hcur, h]

omit hcur

/-- BUILD on a BUILT codebook completes with OK (R105). -/
theorem exec_of_built_build (h : s.cb i.codebook = .built) (hr : i.readsStream = false) :
    exec i s = .next (afterNoResult s q .ok) := by
  rw [exec_of_built hq hphase hwf (fun hr' => absurd hr' (by simp [hr])) h, performOf_build _ hr]
  exact congrArg _ (setPort_reportNoResult .ok hphase)

variable {cur : Cursor} (h : s.cb i.codebook = .built) (hr : i.readsStream = true) (hc : q.cursor = some cur)
include h hr hc

/-- A decode command on a BUILT codebook is the shared decode (R109). -/
theorem exec_of_built_decode :
    exec i s = performDecode i.codebook (resultsOf s.params.iquantTable i) s q := by
  have hcur : i.readsStream = true → q.cursor.isSome = true := fun _ => by rw [hc, Option.isSome_some]
  rw [exec_of_built hq hphase hwf hcur h, performOf_decode _ hr]

theorem exec_of_prefixFree (hfree : (s.romOf i.codebook).prefixFree = true) :
    exec i s = .next (s.setPort s.cur (afterDecode s.cur q cur (resultsOf s.params.iquantTable i)
      (decodeFn (s.romOf i.codebook) cur))) :=
  (exec_of_built_decode hq hphase hwf h hr hc).trans (performDecode_eq hc hfree)

/-- A table outside R21 has its decode refused (log 2). -/
theorem exec_of_not_prefixFree (hfree : (s.romOf i.codebook).prefixFree = false) :
    exec i s = .refused .romNotPrefixFree := by
  rw [exec_of_built_decode hq hphase hwf h hr hc]
  simp only [performDecode, hc, hfree, Bool.false_eq_true, if_false]

end rows

/-- Settles O14, row by row. -/
theorem claimFollowsBuildState : Obligations.ClaimFollowsBuildState := by
  intro i s q hq
  refine ⟨fun w hhold => exec_of_hold hq hhold, fun hphase hwf => exec_of_not_wf hq hphase hwf,
    fun hphase hwf hcur => ⟨fun h => ?_, fun h => ?_, fun h => ?_, fun h hr => ?_, fun cur h hr hc hfree => ?_⟩⟩
  · exact exec_of_unbuilt hq hphase hwf hcur h
  · exact exec_of_building hq hphase hwf hcur h
  · exact exec_of_fault hwf hq hphase hcur h
  · exact exec_of_built_build hq hphase hwf h hr
  · exact exec_of_prefixFree hq hphase hwf h hr hc hfree

/-- Settles O11: the check of the term stands before the build state is looked at. -/
theorem illFormedCommandReportsIllegal : Obligations.IllFormedCommandReportsIllegal :=
  fun _ _ _ hq hphase hwf => exec_of_not_wf hq hphase hwf

/-- Settles O13: the check of the cursor stands before the build state is looked at. -/
theorem decodeWithoutCursorIsRefused : Obligations.DecodeWithoutCursorIsRefused :=
  fun _ _ _ hq hphase hwf hr hcur => exec_of_no_cursor hq hphase hwf hr hcur

/-- Settles O15: BUILD reads no stream, so it needs no cursor. -/
theorem buildOnBuiltCompletes : Obligations.BuildOnBuiltCompletes :=
  fun c _ _ hq hphase h => exec_of_built_build (i := .build c) hq hphase rfl h rfl

/-- Settles O22: a decode command on a BUILT codebook is the shared decode, which looks at the table first. -/
theorem notPrefixFreeTableIsRefused : Obligations.NotPrefixFreeTableIsRefused :=
  fun _ _ _ _ hq hphase hc hwf hr h hfree => exec_of_not_prefixFree hq hphase hwf h hr hc hfree

/-! ## DEC.IDX and DEC.PAIR -/

/-- Settles O16: the results of DEC.IDX are the index and the length. -/
theorem decIdxCompletes : Obligations.DecIdxCompletes :=
  fun c _ _ _ h => exec_of_decodeFn (i := .decIdx c) rfl rfl h

theorem decPair_wf_iff (c : Codebook) : (Instr.decPair c).WellFormed ↔ 5 ≤ c.num ∧ c.num ≤ 10 := by
  rw [← c.kind_eq_pair_iff]
  simp [Instr.WellFormed, Instr.wf]

/-- The components of DEC.PAIR by the codebook's number (R151). -/
theorem pairValue_pack (table : List Word) {c : Codebook} (h5 : 5 ≤ c.num) (h10 : c.num ≤ 10) (k : Nat) :
    (pairValue table c k).pack =
      if c.num ≤ 6 then (signedComponent table 9 (k / 9), signedComponent table 9 (k % 9))
      else if c.num ≤ 8 then (iquant table (k / 8), iquant table (k % 8))
      else (iquant table (k / 13), iquant table (k % 13)) := by
  cases c with
  | cb1 | cb2 | cb3 | cb4 => exact absurd h5 (by decide)
  | cb11 | cb12 => exact absurd h10 (by decide)
  | cb5 | cb6 | cb7 | cb8 | cb9 | cb10 => rfl

/-- Settles O18: the packed components are those of the codebook's pair mapper. -/
theorem decPairCompletes : Obligations.DecPairCompletes := by
  refine ⟨commandRule_of_wf_iff (op := 0x4#4) (fun _ => rfl) (fun _ => rfl) decPair_wf_iff,
    fun c s q cur h5 h10 h => ?_⟩
  obtain ⟨hmatch, herrors⟩ := exec_of_decodeFn (i := .decPair c) ((decPair_wf_iff c).mpr ⟨h5, h10⟩) rfl h
  refine ⟨fun k n hd => ?_, herrors⟩
  rw [hmatch k n hd, resultsOf, pairValue_pack _ h5 h10]
  split
  · rfl
  · split <;> rfl

/-! ## Two ports and one claim (R60) -/

/-- Settles O60: the first command takes the UNBUILT row and leaves the codebook BUILDING, so the second takes that row. -/
theorem oneOfTwoPortsClaimsTheBuild : Obligations.OneOfTwoPortsClaimsTheBuild := by
  intro i j s p r q q' hne hp hr hphase hphase' hwf hwf' hcb hcur hcur' hunbuilt
  have hfirst := exec_of_unbuilt (s := { s with cur := p }) hp hphase hwf hcur hunbuilt
  generalize hs1 : (State.setCb { s with cur := p } i.codebook .building).setPort p (q.holdOn (encode i)) = s1 at hfirst
  have hbuilding : s1.cb i.codebook = .building := by simp [← hs1]
  have hport : s1.port? p = some (q.holdOn (encode i)) := by
    rw [← hs1]
    exact State.port?_setCb_setPort_self { s with cur := p } _ _ p _ hp
  have hport' : s1.port? r = some q' := by
    rw [← hs1, State.port?_setPort_ne _ _ _ hne.symm]
    exact hr
  have hsecond := exec_of_building (s := { s1 with cur := r }) hport' hphase' hwf' hcur' (hcb ▸ hbuilding)
  refine ⟨s1, _, hfirst, hsecond, hbuilding, rfl, ?_, ?_⟩
  · rw [State.port?_setPort_ne _ _ _ hne]
    exact hport
  · exact State.port?_setPort_self { s1 with cur := r } r _ hport'

/-! ## What a command may change -/

/-- The port of an executed command afterwards, by what the command came to: held for a build, completed without a result,
or a decode that matched or met a stream error. `s` has the claim already made. -/
inductive PortAfter (i : Instr) (s : State) (q : Port) : Port → Prop
  | held (hwf : i.WellFormed) (hcur : i.readsStream = true → q.cursor.isSome = true)
      (hcb : s.cb i.codebook = .building) : PortAfter i s q (q.holdOn (encode i))
  | noResult (e : Code) : PortAfter i s q (q.reportNoResult e)
  | matched {cur : Cursor} {k n : Nat} (hwf : i.WellFormed) (hr : i.readsStream = true) (hc : q.cursor = some cur)
      (hcb : s.cb i.codebook = .built) (hd : decodeFn (s.romOf i.codebook) cur = .matched k n) (r : Word × Word) :
      PortAfter i s q (decodeDone q cur n r)
  | streamError {cur : Cursor} {e : Code} (hr : i.readsStream = true) (hc : q.cursor = some cur)
      (he : e = .truncated ∨ e = .noCodeword) : PortAfter i s q (streamError s.cur q cur e)

/-- The state in which the port is set: `s`, or `s` with the command's codebook claimed (R103). -/
def ClaimOf (i : Instr) (s s' : State) : Prop :=
  s' = s ∨ (i.WellFormed ∧ s.cb i.codebook = .unbuilt ∧ s' = s.setCb i.codebook .building)

/-- A command makes its claim, if any, and sets its own port. -/
theorem exec_next_portAfter {i : Instr} {s t : State} (h : exec i s = .next t) :
    ∃ q q' s', s.port? s.cur = some q ∧ q.phase = .idle ∧ ClaimOf i s s' ∧ PortAfter i s' q q' ∧
      t = s'.setPort s.cur q' := by
  obtain ⟨q, hq, hphase, hrow⟩ := exec_next h
  refine ⟨q, ?_⟩
  obtain ⟨-, rfl⟩ | ⟨hwf, hcb, hcur, rfl⟩ | ⟨hwf, hcb, hcur, rfl⟩ | ⟨-, -, rfl⟩ | ⟨-, -, -, rfl⟩ |
    ⟨hwf, hcb, hr, cur, hc, -, rfl⟩ := hrow
  · exact ⟨_, s, hq, hphase, .inl rfl, .noResult .illegal, rfl⟩
  · exact ⟨_, _, hq, hphase, .inr ⟨hwf, hcb, rfl⟩, .held hwf hcur (State.setCb_cb_self ..), rfl⟩
  · exact ⟨_, s, hq, hphase, .inl rfl, .held hwf hcur hcb, rfl⟩
  · exact ⟨_, s, hq, hphase, .inl rfl, .noResult .config, rfl⟩
  · exact ⟨_, s, hq, hphase, .inl rfl, .noResult .ok, rfl⟩
  · refine ⟨_, s, hq, hphase, .inl rfl, ?_, rfl⟩
    cases hd : decodeFn (s.romOf i.codebook) cur with
    | matched k n => exact .matched hwf hr hc hcb hd _
    | truncated => exact .streamError hr hc (.inl rfl)
    | noCodeword => exact .streamError hr hc (.inr rfl)

section claim
variable {i : Instr} {s s' : State}

/-- A claim moves the build state of the command's codebook, and no other. -/
theorem ClaimOf.cb (h : ClaimOf i s s') (c : Codebook) :
    s'.cb c = s.cb c ∨ (c = i.codebook ∧ i.WellFormed ∧ s.cb c = .unbuilt ∧ s'.cb c = .building) := by
  obtain rfl | ⟨hwf, hcb, rfl⟩ := h
  · exact .inl rfl
  · by_cases hc : c = i.codebook
    · subst hc
      exact .inr ⟨rfl, hwf, hcb, State.setCb_cb_self ..⟩
    · exact .inl (by rw [State.setCb_cb, if_neg hc])

/-- A claim changes nothing but a build state. -/
theorem ClaimOf.others (h : ClaimOf i s s') :
    s'.ports = s.ports ∧ s'.params = s.params ∧ s'.cur = s.cur ∧ s'.inputs = s.inputs ∧ s'.replies = s.replies := by
  obtain rfl | ⟨-, -, rfl⟩ := h <;> exact ⟨rfl, rfl, rfl, rfl, rfl⟩

end claim

/-- Settles O48: a command makes its claim and sets its port, and neither touches the rest. -/
theorem commandFrame : Obligations.CommandFrame := by
  intro i s t h
  obtain ⟨q, q', s', -, -, hclaim, -, rfl⟩ := exec_next_portAfter h
  obtain ⟨hports, hparams, hcur, hinputs, hreplies⟩ := hclaim.others
  refine ⟨fun r hne => ?_, ?_, hparams, hcur, hinputs, hreplies, hclaim.cb⟩
  · rw [State.port?_setPort_ne s' s.cur q' hne, State.port?, State.port?, hports]
  · rw [State.setPort_ports, List.length_set, hports]

/-- The port after a command is `PortAfter` of the port before it. -/
theorem portAfter_of_exec {i : Instr} {s t : State} {q q' : Port} (h : exec i s = .next t)
    (hq : s.port? s.cur = some q) (hq' : t.port? s.cur = some q') : ∃ s', PortAfter i s' q q' := by
  obtain ⟨q₀, q₁, s', hq₀, -, hclaim, hafter, rfl⟩ := exec_next_portAfter h
  obtain ⟨hports, -⟩ := hclaim.others
  obtain rfl : q₀ = q := Option.some.inj (hq₀.symm.trans hq)
  have hself : (s'.setPort s.cur q₁).port? s.cur = some q₁ :=
    State.port?_setPort_self s' s.cur q₁ (q' := q₀) (by rw [State.port?, hports]; exact hq)
  obtain rfl : q₁ = q' := Option.some.inj (hself.symm.trans hq')
  exact ⟨s', hafter⟩

section portAfter
variable {i : Instr} {s : State} {q q' : Port} (h : PortAfter i s q q')
include h

theorem PortAfter.cursor_none (hc : q.cursor = none) : q'.cursor = none := by
  cases h with
  | held | noResult => exact hc
  | matched _ _ hc' | streamError _ hc' => simp [hc] at hc'

/-- The stream stays, and the position moves between the old one and the end (R37, R55). -/
theorem PortAfter.cursor_some {cur : Cursor} (hc : q.cursor = some cur) (hpos : cur.pos ≤ cur.bits.length) :
    ∃ cur', q'.cursor = some cur' ∧ cur'.bits = cur.bits ∧ cur.pos ≤ cur'.pos ∧ cur'.pos ≤ cur.bits.length := by
  cases h with
  | held | noResult => exact ⟨cur, hc, rfl, le_rfl, hpos⟩
  | @matched cur' k n _ _ hc' _ hd =>
    obtain rfl : cur' = cur := Option.some.inj (hc'.symm.trans hc)
    obtain ⟨x, -, rfl, hpx⟩ := decodeFn_matched hd
    have hle : x.2 ≤ cur'.rem := ((present_iff cur' x).mp hpx).1
    unfold Cursor.rem at hle
    exact ⟨_, decodeDone_cursor .., rfl, Nat.le_add_right .., by rw [Cursor.advance_pos]; omega⟩
  | @streamError cur' e _ hc' =>
    obtain rfl : cur' = cur := Option.some.inj (hc'.symm.trans hc)
    obtain ⟨hlow, hhigh⟩ := drawPosition_bounds s.cur q.draws cur' hpos
    exact ⟨_, streamError_cursor .., rfl, hlow, hhigh⟩

/-- Only a decode that reads the stream touches the cursor, and it completes with OK or a stream error. -/
theorem PortAfter.cursor_eq
    (hno : i.readsStream = false ∨ q'.code = .illegal ∨ q'.code = .config ∨ ∃ w, q'.phase = .hold w) :
    q'.cursor = q.cursor := by
  cases h with
  | held | noResult => rfl
  | matched _ hr => simp [hr] at hno
  | streamError hr _ he => obtain rfl | rfl := he <;> simp [hr] at hno

end portAfter

/-- Settles O49: each clause by what the command came to. -/
theorem commandMovesCursorForward : Obligations.CommandMovesCursorForward := by
  intro i s t q q' h hq hq'
  obtain ⟨s', hafter⟩ := portAfter_of_exec h hq hq'
  exact ⟨hafter.cursor_none, fun _ hc hpos => hafter.cursor_some hc hpos, hafter.cursor_eq⟩

/-- Settles O50: the one case that writes the results is a decode that matched. -/
theorem resultsWrittenOnlyByCompletedDecodes : Obligations.ResultsWrittenOnlyByCompletedDecodes := by
  intro i s t q q' h hq hq'
  obtain ⟨s', hafter⟩ := portAfter_of_exec h hq hq'
  cases hafter with
  | held hwf => exact .inl ⟨rfl, hwf⟩
  | noResult | streamError => exact .inr (.inr ⟨rfl, rfl, rfl, rfl, rfl⟩)
  | matched hwf hr => exact .inr (.inl ⟨rfl, rfl, rfl, hr, hwf⟩)

end Sys2Proof.Machine

/-! PROOFS. Noninterference (R39, R58): what a command does depends only on the view of its port, and commands of
different ports leave each other's views alone. -/

namespace Sys2Proof.Machine

/-! ## Equal views -/

section view
variable {s t : State}

theorem SameView.symm (h : SameView s t) : SameView t s :=
  ⟨h.params.symm, h.cbstate.symm, h.cur.symm, h.port.symm⟩

theorem SameView.cb (h : SameView s t) (c : Codebook) : t.cb c = s.cb c := by
  rw [State.cb, State.cb, h.cbstate]

theorem SameView.romOf (h : SameView s t) (c : Codebook) : t.romOf c = s.romOf c := by
  rw [State.romOf, State.romOf, h.params]

theorem SameView.setCb (h : SameView s t) (c : Codebook) (x : CbState) : SameView (s.setCb c x) (t.setCb c x) :=
  ⟨h.params, congrArg (PerBook.set · c x) h.cbstate, h.cur, h.port⟩

theorem SameView.setPort (h : SameView s t) {q : Port} (hq : s.port? s.cur = some q) (q' : Port) :
    SameView (s.setPort s.cur q') (t.setPort t.cur q') :=
  ⟨h.params, h.cbstate, h.cur, (State.port?_setPort_self s s.cur q' hq).trans
    (State.port?_setPort_self t t.cur q' (h.port.symm.trans hq)).symm⟩

end view

/-- The outcomes of a command that ends the same way in two states: refused alike, or next states with the same view. A
command never faults. -/
inductive SameOutcome : Outcome → Outcome → Prop
  | next {s t : State} (h : SameView s t) : SameOutcome (.next s) (.next t)
  | refused (r : Refusal) : SameOutcome (.refused r) (.refused r)

/-- The shared decode reads nothing but the view (R109). -/
theorem performDecode_sameOutcome {s t : State} {q : Port} (h : SameView s t) (hq : s.port? s.cur = some q) (c : Codebook)
    (pack : Nat → Nat → Word × Word) : SameOutcome (performDecode c pack s q) (performDecode c pack t q) := by
  cases hc : q.cursor with
  | none =>
    simp only [performDecode, hc]
    exact .refused _
  | some cur =>
    cases hfree : (s.romOf c).prefixFree with
    | true =>
      rw [performDecode_eq hc hfree, performDecode_eq hc ((h.romOf c).symm ▸ hfree), h.romOf c, ← h.cur]
      exact .next (h.cur ▸ h.setPort hq _)
    | false =>
      simp only [performDecode, hc, h.romOf c, hfree, Bool.false_eq_true, if_false]
      exact .refused _

/-- So does what a command performs on a BUILT codebook (R105, R109). -/
theorem performOf_sameOutcome (i : Instr) {s t : State} {q : Port} (h : SameView s t) (hq : s.port? s.cur = some q) :
    SameOutcome (performOf s.params.iquantTable i s q) (performOf t.params.iquantTable i t q) := by
  rw [← h.params]
  cases hr : i.readsStream with
  | false =>
    rw [performOf_build _ hr]
    exact .next (h.setPort hq _)
  | true =>
    rw [performOf_decode _ hr]
    exact performDecode_sameOutcome h hq _ _

/-- States with the same view take the same row of the claim. -/
theorem exec_sameOutcome (i : Instr) {s t : State} (h : SameView s t) : SameOutcome (exec i s) (exec i t) := by
  cases hq : s.port? s.cur with
  | none =>
    rw [exec_of_no_port hq, exec_of_no_port (h.port.symm.trans hq)]
    exact .refused _
  | some q =>
    have hq' : t.port? t.cur = some q := h.port.symm.trans hq
    cases hphase : q.phase with
    | hold w =>
      rw [exec_of_hold hq hphase, exec_of_hold hq' hphase]
      exact .refused _
    | idle =>
      by_cases hwf : i.WellFormed
      · by_cases hcur : i.readsStream = true → q.cursor.isSome = true
        · cases hcb : s.cb i.codebook with
          | unbuilt =>
            rw [exec_of_unbuilt hq hphase hwf hcur hcb, exec_of_unbuilt hq' hphase hwf hcur ((h.cb _).trans hcb)]
            exact .next ((h.setCb _ _).setPort hq _)
          | building =>
            rw [exec_of_building hq hphase hwf hcur hcb, exec_of_building hq' hphase hwf hcur ((h.cb _).trans hcb)]
            exact .next (h.setPort hq _)
          | fault =>
            rw [exec_of_fault hwf hq hphase hcur hcb, exec_of_fault hwf hq' hphase hcur ((h.cb _).trans hcb)]
            exact .next (h.setPort hq _)
          | built =>
            rw [exec_of_built hq hphase hwf hcur hcb, exec_of_built hq' hphase hwf hcur ((h.cb _).trans hcb)]
            exact performOf_sameOutcome i h hq
        · obtain ⟨hr, hnone⟩ : i.readsStream = true ∧ q.cursor = none := by simpa using hcur
          rw [exec_of_no_cursor hq hphase hwf hr hnone, exec_of_no_cursor hq' hphase hwf hr hnone]
          exact .refused _
      · rw [exec_of_not_wf hq hphase hwf, exec_of_not_wf hq' hphase hwf]
        exact .next (h.setPort hq _)

/-- A next state in one of two states with the same view has a counterpart in the other. -/
theorem exec_next_of_sameView {i : Instr} {s t s' : State} (h : SameView s t) (hs : exec i s = .next s') :
    ∃ t', exec i t = .next t' ∧ SameView s' t' := by
  have hsame := exec_sameOutcome i h
  rw [hs] at hsame
  generalize exec i t = o at hsame
  cases hsame with
  | next hview => exact ⟨_, rfl, hview⟩

/-- Settles O58: the outcomes are alike, and none is a fault. -/
theorem commandDependsOnlyOnItsPort : Obligations.CommandDependsOnlyOnItsPort := by
  intro i s t h
  refine ⟨fun s' hs => exec_next_of_sameView h hs, ?_⟩
  have hsame := exec_sameOutcome i h
  generalize exec i s = o, exec i t = o' at hsame
  cases hsame with
  | next => exact ⟨fun f => ⟨nofun, nofun⟩, fun r => ⟨nofun, nofun⟩⟩
  | refused r => exact ⟨fun f => ⟨nofun, nofun⟩, fun r' => Iff.rfl⟩

/-! ## Commands of different ports -/

/-- On a claimed codebook a command sets its own port and nothing else. -/
theorem exec_next_of_claimed {i : Instr} {s t : State} (hcb : s.cb i.codebook ≠ .unbuilt) (h : exec i s = .next t) :
    ∃ q q', s.port? s.cur = some q ∧ t = s.setPort s.cur q' := by
  obtain ⟨q, q', s', hq, -, rfl | ⟨-, hun, -⟩, -, rfl⟩ := exec_next_portAfter h
  · exact ⟨q, q', hq, rfl⟩
  · exact absurd hun hcb

/-- On a claimed codebook a command sets its port alike in two states with the same view. -/
theorem exec_setPort_of_sameView {i : Instr} {s t : State} {q' : Port} (hcb : s.cb i.codebook ≠ .unbuilt)
    (hview : SameView s t) (h : exec i s = .next (s.setPort s.cur q')) : exec i t = .next (t.setPort t.cur q') := by
  obtain ⟨t', ht, hview'⟩ := exec_next_of_sameView hview h
  obtain ⟨q, q'', hq, rfl⟩ := exec_next_of_claimed ((hview.cb _).symm ▸ hcb) ht
  have hport : some q' = some q'' :=
    calc some q'
        = (s.setPort s.cur q').port? s.cur := (State.port?_setPort_self s s.cur q' (hview.port.trans hq)).symm
      _ = (t.setPort t.cur q'').port? t.cur := hview'.port
      _ = some q'' := State.port?_setPort_self t t.cur q'' hq
  rw [ht, Option.some.inj hport]

/-- Setting another port leaves the view of port `r`. -/
theorem sameView_setPort_ne (s : State) {p r : Nat} (q : Port) (hne : r ≠ p) :
    SameView { s with cur := r } { s.setPort p q with cur := r } :=
  ⟨rfl, rfl, rfl, (State.port?_setPort_ne s p q hne).symm⟩

/-- Settles O59: each command sets its own port, which leaves the view of the other's, so it sets it alike in both
orders; and setting two ports commutes. -/
theorem commandsOnDifferentPortsCommute : Obligations.CommandsOnDifferentPortsCommute := by
  intro i j s s1 s2 p r hne hi hj h1 h2
  obtain ⟨_, q1, -, rfl⟩ := exec_next_of_claimed (s := { s with cur := p }) hi h1
  obtain ⟨_, q2, -, rfl⟩ := exec_next_of_claimed (s := { s.setPort p q1 with cur := r }) hj h2
  have hfirst := exec_setPort_of_sameView (s := { s.setPort p q1 with cur := r }) hj
    (sameView_setPort_ne s q1 hne.symm).symm h2
  have hsecond := exec_setPort_of_sameView (s := { s with cur := p }) hi
    (sameView_setPort_ne s q2 hne) h1
  exact ⟨_, _, hfirst, hsecond, List.set_comm q2 q1 hne.symm, rfl, rfl⟩

end Sys2Proof.Machine

/-! PROOFS. What a step may do (R57, R58): one inversion, `step_effect`, and what every step therefore keeps, the invariant
of the block among it. -/

namespace Sys2Proof.Machine

/-! ## The effect of a step -/

/-- What an action that is no reset does to the block: a reply to the host (or nothing), a new cursor, a publish of the
builder, ILLEGAL for a word that is no command, a command issued, or a held command released. -/
inductive Effect (s : State) : State → Prop
  | replies (ws : List Word) : Effect s { s with replies := ws }
  | cursor {p : Nat} {q : Port} {cur : Cursor} (hq : s.port? p = some q) (hphase : q.phase = .idle)
      (hpos : cur.pos ≤ cur.bits.length) : Effect s (s.setPort p { q with cursor := some cur })
  | publish {c : Codebook} (hcb : s.cb c = .building) :
      Effect s (s.setCb c (if (s.romOf c).check c then .built else .fault))
  | illegal {p : Nat} {q : Port} (hq : s.port? p = some q) :
      Effect s ({ s with cur := p }.setPort p (q.reportNoResult .illegal))
  | issued {p : Nat} {i : Instr} {t : State} (h : exec i { s with cur := p } = .next t) : Effect s t
  | released {p : Nat} {q : Port} {i : Instr} {t : State} (hq : s.port? p = some q)
      (h : exec i ({ s with cur := p }.setPort p { q with phase := .idle }) = .next t) : Effect s t

theorem changeCursor_effect {p pos : Nat} {bits : List Bool} {s t : State} (h : changeCursor p bits pos s = .next t) :
    Effect s t := by
  obtain ⟨q, hq, hphase, hpos, rfl⟩ := changeCursor_next h
  exact .cursor (cur := ⟨bits, pos⟩) hq hphase hpos

theorem writeAccess_effect {a : RegAddr} {width : Nat} {data : Word} {s t : State}
    (h : writeAccess a width data s = .next t) : Effect s t := by
  obtain rfl | ⟨p, hp⟩ := writeAccess_next h
  · exact .replies t.replies
  · obtain ⟨q, hq, -, ⟨i, -, hi⟩ | ⟨e, -, rfl⟩⟩ := writeCmd_next hp
    · exact .issued hi
    · exact .illegal hq

theorem act_effect {a : Action} {s t : State} (hne : a ≠ .reset) (h : act a s = .next t) : Effect s t := by
  cases a with
  | write a width data => exact writeAccess_effect h
  | read a width =>
    obtain ⟨w, rfl⟩ := readAccess_next h
    exact .replies _
  | attach p bits pos => exact changeCursor_effect h
  | attachBytes p bytes len pos => exact changeCursor_effect (attachBytes_next h).2
  | seek p pos =>
    obtain ⟨q, cur, hq, hphase, -, hpos, rfl⟩ := seek_next h
    exact .cursor (cur := ⟨cur.bits, pos⟩) hq hphase hpos
  | builder c =>
    obtain ⟨hcb, rfl⟩ := builderStep_next h
    exact .publish hcb
  | release p =>
    obtain ⟨q, w, i, hq, -, -, -, ht⟩ := releaseStep_next h
    exact .released hq ht
  | reset => exact absurd rfl hne

/-- The block by itself builds or releases (R201). -/
theorem ownMove?_some {s : State} {a : Action} (h : ownMove? s = some a) :
    (∃ c, a = .builder c ∧ s.cb c = .building) ∨
      ∃ p q, a = .release p ∧ s.port? p = some q ∧ releasable s q = true := by
  unfold ownMove? at h
  split at h
  · rename_i c hc
    cases h
    exact .inl ⟨c, rfl, by simpa using List.find?_some hc⟩
  · obtain ⟨p, hp, rfl⟩ := Option.map_eq_some_iff.mp h
    obtain ⟨hlt, hrel, -⟩ := List.findIdx?_eq_some_iff_getElem.mp hp
    exact .inr ⟨p, s.ports[p], rfl, List.getElem?_eq_getElem hlt, hrel⟩

/-- A step is a reset or has one of the effects above, with the action taken off the schedule. -/
theorem step_effect {s t : State} (h : step s = .next t) :
    Effect { s with inputs := s.inputs.tail } t ∨
      ∃ rest, s.inputs = .reset :: rest ∧ t = resetBlock { s with inputs := rest } := by
  obtain ⟨a, rest, hin, ha⟩ | ⟨hin, a, hown, ha⟩ | ⟨hin, -, hrest⟩ := step_next h
  · by_cases hreset : a = .reset
    · subst hreset
      cases ha
      exact .inr ⟨rest, hin, rfl⟩
    · rw [hin, List.tail_cons]
      exact .inl (act_effect hreset ha)
  all_goals
    have hs : { s with inputs := s.inputs.tail } = s := by rw [hin, List.tail_nil, ← hin]
    rw [hs]
  · have hne : a ≠ .reset := by
      obtain ⟨c, rfl, -⟩ | ⟨p, q, rfl, -⟩ := ownMove?_some hown <;> nofun
    exact .inl (act_effect hne ha)
  · subst hrest
    exact .inl (.replies _)

/-! ## What every step keeps -/

/-- No effect writes the parameters, the number of ports or the schedule (R21, R182). -/
theorem Effect.frame {s t : State} (h : Effect s t) :
    t.params = s.params ∧ t.ports.length = s.ports.length ∧ t.inputs = s.inputs := by
  cases h with
  | replies | publish => exact ⟨rfl, rfl, rfl⟩
  | cursor | illegal => exact ⟨rfl, List.length_set, rfl⟩
  | issued h =>
    obtain ⟨-, hlen, hparams, -, hinputs, -⟩ := commandFrame _ _ _ h
    exact ⟨hparams, hlen, hinputs⟩
  | released hq h =>
    obtain ⟨-, hlen, hparams, -, hinputs, -⟩ := commandFrame _ _ _ h
    exact ⟨hparams, hlen.trans List.length_set, hinputs⟩

/-- Settles O53: neither an effect nor a reset writes them. -/
theorem parametersAreConstant : Obligations.ParametersAreConstant := by
  intro s t h
  obtain heff | ⟨rest, -, rfl⟩ := step_effect h
  · obtain ⟨hparams, hlen, -⟩ := heff.frame
    exact ⟨hparams, hlen⟩
  · exact ⟨rfl, List.length_map _⟩

theorem CbState.mayMove_self (x : CbState) : x.mayMove x = true := by
  cases x <;> rfl

/-- A command moves a build state by a claim, if at all (R103). -/
theorem exec_mayMove {i : Instr} {s t : State} (h : exec i s = .next t) (c : Codebook) :
    (s.cb c).mayMove (t.cb c) = true := by
  obtain ⟨-, -, -, -, -, -, hcb⟩ := commandFrame i s t h
  obtain hsame | ⟨-, -, hs, ht⟩ := hcb c
  · rw [hsame, CbState.mayMove_self]
  · rw [hs, ht]
    rfl

theorem Effect.mayMove {s t : State} (h : Effect s t) (c : Codebook) : (s.cb c).mayMove (t.cb c) = true := by
  cases h with
  | replies | cursor | illegal => exact CbState.mayMove_self _
  | @publish d hd =>
    rw [State.setCb_cb]
    split
    · subst c
      rw [hd]
      split <;> rfl
    · exact CbState.mayMove_self _
  | issued h | released _ h => exact exec_mayMove h c

/-- Settles O51: the effects move build states by claims and publishes. -/
theorem buildStatesMoveOnlyForward : Obligations.BuildStatesMoveOnlyForward := by
  intro s t h hreset c
  obtain heff | ⟨rest, hin, -⟩ := step_effect h
  · exact heff.mayMove c
  · exact absurd (by rw [hin, List.head?_cons]) hreset

/-! ## Runs -/

/-- What a build state keeps over any number of moves (R114). -/
def CbState.Keeps (x y : CbState) : Prop :=
  (x = .built → y = .built) ∧ (x = .fault → y = .fault) ∧ (x ≠ .unbuilt → y ≠ .unbuilt)

theorem CbState.keeps_of_mayMove {x y : CbState} (h : x.mayMove y = true) : x.Keeps y := by
  unfold CbState.Keeps
  cases x <;> cases y <;> simp_all [CbState.mayMove]

theorem CbState.Keeps.trans {x y z : CbState} (hxy : x.Keeps y) (hyz : y.Keeps z) : x.Keeps z := by
  obtain ⟨hb, hf, hu⟩ := hxy
  obtain ⟨hb', hf', hu'⟩ := hyz
  exact ⟨hb' ∘ hb, hf' ∘ hf, hu' ∘ hu⟩

/-- A run of `k + 1` steps is a step and a run of `k` steps. -/
theorem run_succ_of_step {s u : State} (h : step s = .next u) (k : Nat) :
    Host.Core.run Sys2Proof.core (k + 1) s = Host.Core.run Sys2Proof.core k u := by
  have hcore : Sys2Proof.core.step s = .next u := h
  simp only [Host.Core.run, hcore]

theorem run_succ_next {k : Nat} {s t : State} (h : Host.Core.run Sys2Proof.core (k + 1) s = .next t) :
    ∃ u, step s = .next u ∧ Host.Core.run Sys2Proof.core k u = .next t := by
  cases hs : step s with
  | next u => exact ⟨u, rfl, (run_succ_of_step hs k).symm.trans h⟩
  | fault r | refused r =>
    have hcore : Sys2Proof.core.step s = _ := hs
    simp [Host.Core.run, hcore] at h

/-- Without a reset in the schedule a step only shortens the schedule, so none comes into it. -/
theorem step_keeps_no_reset {s t : State} (h : step s = .next t) (hno : Action.reset ∉ s.inputs) :
    Action.reset ∉ t.inputs := by
  obtain heff | ⟨rest, hin, -⟩ := step_effect h
  · obtain ⟨-, -, hinputs⟩ := heff.frame
    rw [hinputs]
    exact fun hmem => hno (List.mem_of_mem_tail hmem)
  · exact absurd (by rw [hin]; exact List.mem_cons_self) hno

/-- Settles O52: by induction on the number of steps, each of which moves a build state only forward. -/
theorem codebooksAreBuiltAtMostOnce : Obligations.CodebooksAreBuiltAtMostOnce := by
  intro k
  suffices hkeeps : ∀ s t : State, Host.Core.run Sys2Proof.core k s = .next t → Action.reset ∉ s.inputs →
      ∀ c, (s.cb c).Keeps (t.cb c) from hkeeps
  induction k with
  | zero =>
    intro s t h _ c
    cases h
    exact ⟨id, id, id⟩
  | succ k ih =>
    intro s t h hno c
    obtain ⟨u, hstep, hrun⟩ := run_succ_next h
    have hfirst : (s.cb c).mayMove (u.cb c) = true :=
      buildStatesMoveOnlyForward s u hstep (fun hhead => hno (List.mem_of_head? hhead)) c
    exact (CbState.keeps_of_mayMove hfirst).trans (ih u t hrun (step_keeps_no_reset hstep hno) c)

/-! ## The invariant -/

section invariant
variable {s t : State}

/-- The invariant speaks of the parameters, the build states and the ports only. -/
theorem State.Inv.congr (h : s.Inv) (hparams : t.params = s.params) (hcb : t.cbstate = s.cbstate)
    (hports : t.ports = s.ports) : t.Inv := by
  obtain ⟨params, cbstate, ports, _, _, _⟩ := t
  subst hparams hcb hports
  exact ⟨h.romOk, h.builtChecked, h.faultUnchecked, fun q hq => (h.ports q hq).mono fun _ hc => hc⟩

theorem State.Inv.setPort (h : s.Inv) (p : Nat) {q : Port} (hq : PortInv s q) : (s.setPort p q).Inv := by
  refine ⟨h.romOk, h.builtChecked, h.faultUnchecked, fun q' hq' => ?_⟩
  obtain hmem | rfl := List.mem_or_eq_of_mem_set hq'
  · exact (h.ports q' hmem).mono fun _ hc => hc
  · exact hq.mono fun _ hc => hc

/-- A build state may be set to what the check says, or to BUILDING. -/
theorem State.Inv.setCb (h : s.Inv) {c : Codebook} {x : CbState} (hclaimed : x ≠ .unbuilt)
    (hbuilt : x = .built → (s.romOf c).check c = true) (hfault : x = .fault → (s.romOf c).check c = false) :
    (s.setCb c x).Inv := by
  refine ⟨h.romOk, fun d hd => ?_, fun d hd => ?_, fun q hq => (h.ports q hq).mono fun d hd => ?_⟩
  all_goals
    rw [State.setCb_cb] at *
    split at *
  · subst d
    exact hbuilt hd
  · exact h.builtChecked d hd
  · subst d
    exact hfault hd
  · exact h.faultUnchecked d hd
  · exact hclaimed
  · exact hd

theorem State.Inv.publish (h : s.Inv) (c : Codebook) :
    (s.setCb c (if (s.romOf c).check c then .built else .fault)).Inv := by
  cases hcheck : (s.romOf c).check c with
  | true => exact h.setCb (by decide) (fun _ => hcheck) nofun
  | false => exact h.setCb (by decide) nofun (fun _ => hcheck)

theorem State.Inv.claim {i : Instr} (h : s.Inv) (hclaim : ClaimOf i s t) : t.Inv := by
  obtain rfl | ⟨-, -, rfl⟩ := hclaim
  · exact h
  · exact h.setCb (by decide) nofun nofun

theorem State.Inv.reset (h : s.Inv) : (resetBlock s).Inv := by
  refine ⟨h.romOk, fun c hc => ?_, fun c hc => ?_, fun q hq => ?_⟩
  · rw [resetBlock_cb] at hc
    cases hc
  · rw [resetBlock_cb] at hc
    cases hc
  · obtain ⟨q₀, -, rfl⟩ := List.mem_map.mp hq
    exact ⟨nofun, nofun, fun _ => rfl, nofun⟩

/-! ### The port of a command -/

variable {q : Port}

/-- A completion without a result meets the invariant wherever the port came from. -/
theorem PortInv.reportNoResult (h : PortInv s q) (e : Code) : PortInv s (q.reportNoResult e) :=
  ⟨h.position, nofun, fun _ => rfl, nofun⟩

theorem PortInv.setCursor (h : PortInv s q) (hphase : q.phase = .idle) {cur : Cursor}
    (hpos : cur.pos ≤ cur.bits.length) : PortInv s { q with cursor := some cur } := by
  refine ⟨?_, h.validOk, h.notValid, fun w hw => ?_⟩
  · rintro _ ⟨⟩
    exact hpos
  · exact absurd (hphase.symm.trans hw) nofun

theorem PortInv.setIdle (h : PortInv s q) : PortInv s { q with phase := .idle } :=
  ⟨h.position, h.validOk, h.notValid, nofun⟩

/-- Each end of a command meets the invariant: a match consumed what the check lets a codeword have, a hold waits for a
claimed codebook. -/
theorem PortAfter.portInv {i : Instr} {q' : Port} (h : PortAfter i s q q') (hs : s.Inv) (hq : PortInv s q) :
    PortInv s q' := by
  have hposition : ∀ cur', q'.cursor = some cur' → cur'.pos ≤ cur'.bits.length := by
    intro cur' hc'
    cases hc : q.cursor with
    | none => simp [h.cursor_none hc] at hc'
    | some cur =>
      obtain ⟨cur₁, hc₁, hbits, -, hpos⟩ := h.cursor_some hc (hq.position cur hc)
      obtain rfl : cur₁ = cur' := Option.some.inj (hc₁.symm.trans hc')
      rwa [hbits]
  cases h with
  | held hwf hcur hcb =>
    refine ⟨hposition, hq.validOk, hq.notValid, ?_⟩
    rintro _ ⟨⟩
    exact ⟨i, decode_eq_ok_iff.mpr ⟨rfl, hwf⟩, by rw [hcb]; decide, hcur⟩
  | noResult e => exact hq.reportNoResult e
  | @matched cur k n _ _ _ hcb hd =>
    obtain ⟨hlow, hhigh, -⟩ := length_bounds_of_matched (hs.builtChecked _ hcb) hd
    refine ⟨hposition, fun _ => ⟨rfl, ?_⟩, nofun, nofun⟩
    rw [decodeDone_consumed, toNat_consumed hhigh]
    exact ⟨hlow, hhigh⟩
  | streamError => exact ⟨hposition, nofun, fun _ => rfl, nofun⟩

theorem State.Inv.exec {i : Instr} (hs : s.Inv) (h : exec i s = .next t) : t.Inv := by
  obtain ⟨q, q', s', hq, -, hclaim, hafter, rfl⟩ := exec_next_portAfter h
  have hs' : s'.Inv := hs.claim hclaim
  obtain ⟨hports, -⟩ := hclaim.others
  have hmem : q ∈ s'.ports := hports ▸ State.mem_ports hq
  exact hs'.setPort _ (hafter.portInv hs' (hs'.ports q hmem))

theorem Effect.inv (h : Effect s t) (hs : s.Inv) : t.Inv := by
  have withCur (p : Nat) : State.Inv { s with cur := p } := hs.congr rfl rfl rfl
  have portWithCur {p : Nat} {q : Port} (hq : s.port? p = some q) : PortInv { s with cur := p } q :=
    (withCur p).ports q (State.mem_ports hq)
  cases h with
  | replies ws => exact hs.congr rfl rfl rfl
  | cursor hq hphase hpos => exact hs.setPort _ ((hs.ports _ (State.mem_ports hq)).setCursor hphase hpos)
  | publish => exact hs.publish _
  | illegal hq => exact (withCur _).setPort _ ((portWithCur hq).reportNoResult _)
  | issued h => exact (withCur _).exec h
  | released hq h => exact ((withCur _).setPort _ (portWithCur hq).setIdle).exec h

end invariant

/-- Settles O55: every effect and a reset keep the invariant. -/
theorem stepKeepsInvariant : Obligations.StepKeepsInvariant := by
  intro s t hs h
  have hs' (rest : List Action) : State.Inv { s with inputs := rest } := hs.congr rfl rfl rfl
  obtain heff | ⟨rest, -, rfl⟩ := step_effect h
  · exact heff.inv (hs' _)
  · exact (hs' rest).reset

theorem reset_prefixFree (c : Codebook) : (State.reset.romOf c).prefixFree = true :=
  List.all_eq_true.mp Config.rom.ok c c.mem_all

theorem reset_cb (c : Codebook) : State.reset.cb c = .unbuilt :=
  PerBook.get_replicate _ c

theorem mem_reset_ports {q : Port} (h : q ∈ State.reset.ports) : q = Port.reset := by
  obtain rfl | hq := List.mem_cons.mp h
  · rfl
  · exact List.eq_of_mem_replicate hq

/-- Settles O54: at reset no codebook is claimed, and a port after reset has nothing to keep. -/
theorem invariantHoldsAtReset : Obligations.InvariantHoldsAtReset := by
  refine ⟨reset_prefixFree, fun c hc => ?_, fun c hc => ?_, fun q hq => ?_⟩
  · rw [reset_cb] at hc
    cases hc
  · rw [reset_cb] at hc
    cases hc
  · rw [mem_reset_ports hq]
    exact ⟨nofun, nofun, fun _ => rfl, nofun⟩

end Sys2Proof.Machine

/-! PROOFS. The builder and the release (R102, R107), and the block left to itself (R201, R203): each of its own moves
takes one from the builds and holds that are pending, and the invariant keeps it moving until none is left. -/

namespace Sys2Proof.Machine

/-! ## The builder's step -/

/-- The check of R101 in the spec's own words. -/
theorem check_iff {c : Codebook} {t : CodeTable} :
    t.check c = true ↔ t.codes.length = c.alphabet ∧ t.lens.length = c.alphabet ∧
      ∀ x ∈ t.words, 1 ≤ x.2 ∧ x.2 ≤ 19 ∧ x.1 < 2 ^ x.2 := by
  simp [CodeTable.check, codewordInRange, and_assoc]

theorem builderStep_eq {c : Codebook} {s : State} (h : s.cb c = .building) :
    builderStep c s = .next (s.setCb c (if (s.romOf c).check c then .built else .fault)) :=
  if_pos h

theorem builderStep_built {c : Codebook} {s : State} (h : s.cb c = .building) (hcheck : (s.romOf c).check c = true) :
    builderStep c s = .next (s.setCb c .built) := by
  rw [builderStep_eq h, if_pos hcheck]

theorem builderStep_fault {c : Codebook} {s : State} (h : s.cb c = .building) (hcheck : ¬ (s.romOf c).check c = true) :
    builderStep c s = .next (s.setCb c .fault) := by
  rw [builderStep_eq h, if_neg hcheck]

section built
variable {s : State} {c : Codebook} (h : s.cb c = .built)
include h

/-- What a BUILT codebook shows (R25, R26). -/
theorem decodeTable?_of_built : s.decodeTable? c = some (s.romOf c) :=
  if_pos h

theorem valueArray?_of_built :
    s.valueArray? c = some ((List.range c.alphabet).map (valueOf s.params.iquantTable c)) :=
  if_pos h

end built

/-- Settles O47: the step publishes by the check, and the views of a BUILT codebook appear with it. -/
theorem builderPublishesOnce : Obligations.BuilderPublishesOnce := by
  intro s rest c hin
  refine ⟨fun hb hcodes hlens hwords => ?_, fun hb hno => ?_, fun hb => ?_⟩ <;> rw [step_cons hin]
  · have hcheck : (s.romOf c).check c = true := check_iff.mpr ⟨hcodes, hlens, hwords⟩
    have hbuilt : (State.setCb { s with inputs := rest } c .built).cb c = .built := State.setCb_cb_self ..
    exact ⟨_, builderStep_built (s := { s with inputs := rest }) hb hcheck, rfl, decodeTable?_of_built hbuilt,
      valueArray?_of_built hbuilt⟩
  · exact builderStep_fault (s := { s with inputs := rest }) hb (fun hcheck => hno (check_iff.mp hcheck))
  · exact if_neg hb

/-! ## The release -/

theorem buildOver_iff {s : State} {c : Codebook} : s.buildOver c = true ↔ s.cb c = .built ∨ s.cb c = .fault := by
  simp [State.buildOver]

/-- A codebook that is still to be built is not over with its build. -/
theorem buildOver_eq_false {s : State} {c : Codebook} (h : s.cb c = .unbuilt ∨ s.cb c = .building) :
    s.buildOver c = false := by
  obtain h | h := h <;> simp [State.buildOver, h]

/-- Settles O8: the release is enabled, and it executes the held command. -/
theorem stepRunsReleasedCommand : Obligations.StepRunsReleasedCommand := by
  intro s rest p q w i hin hq hphase hi hover
  calc step s
      = releaseStep p { s with inputs := rest } := step_cons hin
    _ = exec i (State.setPort { s with inputs := rest, cur := p } p { q with phase := .idle }) :=
      releaseStep_eq (s := { s with inputs := rest }) hq hphase hi (buildOver_iff.mpr hover)

theorem releaseStep_of_idle {p : Nat} {s : State} {q : Port} (hq : s.port? p = some q) (hphase : q.phase = .idle) :
    releaseStep p s = .refused .releaseNotEnabled := by
  simp only [releaseStep, hq, hphase]

/-- A held port waits until the build is over (R107). -/
theorem releaseStep_of_not_buildOver {p : Nat} {s : State} {q : Port} {w : Word} {i : Instr} (hq : s.port? p = some q)
    (hphase : q.phase = .hold w) (hi : decode w = .ok i) (hover : s.buildOver i.codebook = false) :
    releaseStep p s = .refused .releaseNotEnabled := by
  simp only [releaseStep, hq, hphase, hi, hover, Bool.false_eq_true, if_false]

/-- Settles O9: a release is enabled on a held port whose build is over, and neither case is one. -/
theorem releaseWaitsForTheBuild : Obligations.ReleaseWaitsForTheBuild := by
  intro s rest p q hin hq
  rw [step_cons hin]
  refine ⟨fun w i hphase hi hcb => ?_, fun hphase => releaseStep_of_idle hq hphase⟩
  have hover : State.buildOver { s with inputs := rest } i.codebook = false := buildOver_eq_false hcb
  exact releaseStep_of_not_buildOver (s := { s with inputs := rest }) hq hphase hi hover

/-- Once its build is over a command completes: it sets its port, which is idle afterwards, and nothing else. -/
theorem exec_of_buildOver {i : Instr} {s : State} {q : Port} (hq : s.port? s.cur = some q) (hphase : q.phase = .idle)
    (hwf : i.WellFormed) (hcur : i.readsStream = true → q.cursor.isSome = true)
    (hfree : (s.romOf i.codebook).prefixFree = true) (hover : s.buildOver i.codebook = true) :
    ∃ q', q'.phase = .idle ∧ exec i s = .next (s.setPort s.cur q') := by
  obtain hb | hf := buildOver_iff.mp hover
  · cases hr : i.readsStream with
    | false => exact ⟨{ q with code := .ok, valid := false, consumed := 0#5 }, hphase,
        exec_of_built_build hq hphase hwf hb hr⟩
    | true =>
      obtain ⟨cur, hc⟩ := Option.isSome_iff_exists.mp (hcur hr)
      refine ⟨_, ?_, exec_of_prefixFree hq hphase hwf hb hr hc hfree⟩
      cases decodeFn (s.romOf i.codebook) cur <;> rfl
  · exact ⟨{ q with code := .config, valid := false, consumed := 0#5 }, hphase, exec_of_fault hwf hq hphase hcur hf⟩

/-- Under the invariant the release of a port whose build is over completes and makes the port idle. -/
theorem releaseStep_of_inv {s : State} {p : Nat} {q : Port} {w : Word} {i : Instr} (hs : s.Inv)
    (hq : s.port? p = some q) (hphase : q.phase = .hold w) (hi : decode w = .ok i)
    (hover : s.buildOver i.codebook = true) :
    ∃ q', q'.phase = .idle ∧ releaseStep p s = .next ({ s with cur := p }.setPort p q') := by
  obtain ⟨j, hj, -, hcur⟩ := (hs.ports q (State.mem_ports hq)).held w hphase
  obtain rfl : i = j := Except.ok.inj (hi.symm.trans hj)
  have hport := State.port?_setPort_self { s with cur := p } p { q with phase := .idle } hq
  obtain ⟨q', hidle, hexec⟩ := exec_of_buildOver hport rfl (decode_wf hi) hcur (hs.romOk _) hover
  refine ⟨q', hidle, (releaseStep_eq hq hphase hi hover).trans (hexec.trans (congrArg _ ?_))⟩
  simp only [State.setPort, List.set_set]

/-- Settles O56: taking the release off the schedule keeps the invariant, under which it completes. -/
theorem releaseNeverGetsStuck : Obligations.ReleaseNeverGetsStuck := by
  intro s rest p q w i hs hin hq hphase hi hover
  have hs' : State.Inv { s with inputs := rest } := hs.congr rfl rfl rfl
  obtain ⟨q', hidle, hrel⟩ := releaseStep_of_inv hs' hq hphase hi (buildOver_iff.mpr hover)
  exact ⟨_, q', (step_cons hin).trans hrel,
    State.port?_setPort_self { s with inputs := rest, cur := p } p q' hq, hidle⟩

/-! ## The block left to itself -/

/-- What is still to be done: the builds that are running and the ports that are held. -/
def State.pending (s : State) : Nat :=
  Codebook.all.countP (fun c => s.cb c == .building) + s.ports.countP fun q => q.phase != .idle

theorem State.pending_le (s : State) : s.pending ≤ 12 + s.ports.length :=
  Nat.add_le_add List.countP_le_length List.countP_le_length

/-- Fewer elements pass a stronger test that one of them fails. -/
theorem countP_lt_of_imp {α : Type} {l : List α} {f g : α → Bool} (himp : ∀ x, f x = true → g x = true) {a : α}
    (ha : a ∈ l) (hf : f a = false) (hg : g a = true) : l.countP f < l.countP g := by
  obtain ⟨l₁, l₂, rfl⟩ := List.append_of_mem ha
  have h₁ : l₁.countP f ≤ l₁.countP g := List.countP_mono_left fun x _ => himp x
  have h₂ : l₂.countP f ≤ l₂.countP g := List.countP_mono_left fun x _ => himp x
  simp only [List.countP_append, List.countP_cons, hf, hg, Bool.false_eq_true, if_false, if_true]
  omega

/-- The end of a build leaves less to do. -/
theorem State.pending_setCb_lt {s : State} {c : Codebook} {x : CbState} (hc : s.cb c = .building) (hx : x ≠ .building) :
    (s.setCb c x).pending < s.pending := by
  refine Nat.add_lt_add_right (countP_lt_of_imp (fun d hd => ?_) c.mem_all ?_ ?_) _
  · rw [beq_iff_eq, State.setCb_cb] at hd
    split at hd
    · exact absurd hd hx
    · exact beq_iff_eq.mpr hd
  · simpa using hx
  · simpa using hc

/-- The release of a held port leaves less to do. -/
theorem State.pending_setPort_lt {s : State} {p : Nat} {q q' : Port} {w : Word} (hq : s.port? p = some q)
    (hphase : q.phase = .hold w) (hidle : q'.phase = .idle) : (s.setPort p q').pending < s.pending := by
  obtain ⟨hlt, hget⟩ := List.getElem?_eq_some_iff.mp hq
  have hpos : 0 < s.ports.countP fun q => q.phase != .idle :=
    List.countP_pos_iff.mpr ⟨q, State.mem_ports hq, by rw [hphase]; rfl⟩
  refine Nat.add_lt_add_left ?_ _
  rw [State.setPort_ports, List.countP_set hlt, hget, hphase, hidle]
  simp only [bne_self_eq_false, Bool.false_eq_true, if_false, bne_iff_ne, ne_eq, reduceCtorEq, not_false_eq_true, if_true]
  omega

theorem releasable_iff {s : State} {q : Port} :
    releasable s q = true ↔ ∃ w i, q.phase = .hold w ∧ decode w = .ok i ∧ s.buildOver i.codebook = true := by
  unfold releasable
  cases q.phase with
  | idle => simp
  | hold w => cases hd : decode w <;> simp [hd]

/-- Under the invariant an own move answers a next state, with less to do. -/
theorem step_own_move {s : State} (hs : s.Inv) (hin : s.inputs = []) {a : Action} (hown : ownMove? s = some a) :
    ∃ t, step s = .next t ∧ t.inputs = [] ∧ t.pending < s.pending := by
  rw [step_own hin hown]
  obtain ⟨c, rfl, hc⟩ | ⟨p, q, rfl, hq, hrel⟩ := ownMove?_some hown
  · refine ⟨_, builderStep_eq hc, hin, State.pending_setCb_lt hc ?_⟩
    split <;> decide
  · obtain ⟨w, i, hphase, hi, hover⟩ := releasable_iff.mp hrel
    obtain ⟨q', hidle, hstep⟩ := releaseStep_of_inv hs hq hphase hi hover
    exact ⟨_, hstep, hin, State.pending_setPort_lt (s := { s with cur := p }) hq hphase hidle⟩

theorem ownMove?_none {s : State} (h : ownMove? s = none) :
    (∀ c, s.cb c ≠ .building) ∧ ∀ q ∈ s.ports, releasable s q = false := by
  unfold ownMove? at h
  split at h
  · cases h
  · rename_i hnone
    refine ⟨fun c => by simpa using List.find?_eq_none.mp hnone c c.mem_all, fun q hq => ?_⟩
    exact List.findIdx?_eq_none_iff.mp (Option.map_eq_none_iff.mp h) q hq

/-- Under the invariant a block that has nothing scheduled and no own move is at the end of a run: a held port waits for a
claimed codebook, which with no build running is BUILT or FAULT. -/
theorem finished_of_no_own_move {s : State} (hs : s.Inv) (hin : s.inputs = []) (hown : ownMove? s = none) :
    s.finished = true := by
  obtain ⟨hbuilding, hrel⟩ := ownMove?_none hown
  have hidle : ∀ q ∈ s.ports, q.phase = .idle := by
    intro q hq
    cases hphase : q.phase with
    | idle => rfl
    | hold w =>
      obtain ⟨i, hi, hclaimed, -⟩ := (hs.ports q hq).held w hphase
      have hover : s.buildOver i.codebook = true := by
        refine buildOver_iff.mpr ?_
        cases hcb : s.cb i.codebook with
        | unbuilt => exact absurd hcb hclaimed
        | building => exact absurd hcb (hbuilding _)
        | built => exact .inl rfl
        | fault => exact .inr rfl
      exact absurd (releasable_iff.mpr ⟨w, i, hphase, hi, hover⟩) (by simp [hrel q hq])
  simp only [State.finished, hin, List.isEmpty_nil, Bool.true_and, Bool.and_eq_true, List.all_eq_true, beq_iff_eq,
    bne_iff_ne]
  exact ⟨hidle, fun c _ => hbuilding c⟩

/-- The block left to itself finishes in as many steps as there is to do. -/
theorem run_finishes {n : Nat} {s : State} (hs : s.Inv) (hin : s.inputs = []) (hn : s.pending ≤ n) :
    ∃ k t, k ≤ n ∧ Host.Core.run Sys2Proof.core k s = .next t ∧ t.finished = true := by
  induction n generalizing s with
  | zero =>
    cases hown : ownMove? s with
    | none => exact ⟨0, s, le_rfl, rfl, finished_of_no_own_move hs hin hown⟩
    | some a =>
      obtain ⟨t, -, -, hlt⟩ := step_own_move hs hin hown
      omega
  | succ n ih =>
    cases hown : ownMove? s with
    | none => exact ⟨0, s, Nat.zero_le _, rfl, finished_of_no_own_move hs hin hown⟩
    | some a =>
      obtain ⟨u, hstep, hin', hlt⟩ := step_own_move hs hin hown
      obtain ⟨k, t, hk, hrun, hfin⟩ := ih (stepKeepsInvariant s u hs hstep) hin' (by omega)
      exact ⟨k + 1, t, Nat.succ_le_succ hk, (run_succ_of_step hstep k).trans hrun, hfin⟩

theorem cb_ne_building_of_finished {s : State} (h : s.finished = true) (c : Codebook) : s.cb c ≠ .building := by
  simp only [State.finished, Bool.and_eq_true, List.all_eq_true, bne_iff_ne] at h
  exact h.2 c c.mem_all

/-- Settles O57: the run finishes within what is pending; a claimed codebook stays claimed over it, and at the end none
is BUILDING. -/
theorem unscheduledBlockComesToRest : Obligations.UnscheduledBlockComesToRest := by
  intro s hs hin
  obtain ⟨k, t, hk, hrun, hfin⟩ := run_finishes hs hin s.pending_le
  refine ⟨k, t, hk, hrun, hfin, fun c hc => ?_⟩
  obtain ⟨-, -, hclaimed⟩ := codebooksAreBuiltAtMostOnce k s t hrun (by rw [hin]; exact List.not_mem_nil) c
  cases hcb : t.cb c with
  | unbuilt => exact absurd hcb (hclaimed (by rw [hc]; decide))
  | building => exact absurd hcb (cb_ne_building_of_finished hfin c)
  | built => exact .inl rfl
  | fault => exact .inr rfl

end Sys2Proof.Machine

/-! PROOFS. The host's side: register windows and accesses (R53 to R56), the STATUS word (R29), cursor actions (R196),
commands written to `CMD` (R28), and reset (R190, R191). -/

namespace Sys2Proof.Machine

/-! ## Register windows and accesses -/

/-- Settles O41: the offset is below the size of a window, so dividing by the size takes the address apart. -/
theorem windowsAreThirtyTwoBytesApart : Obligations.WindowsAreThirtyTwoBytesApart := by
  refine ⟨fun base p off hoff => ⟨?_, if_pos hoff⟩, fun base addr hlt => if_neg hlt.not_ge⟩
  have hport : (base + 0x20 * p + off - base) / 0x20 = p := by omega
  have hoffset : (base + 0x20 * p + off - base) % 0x20 = off := by omega
  simp only [locate?, if_pos (show base ≤ base + 0x20 * p + off by omega), hport, hoffset]

section access
variable {s : State} {a : RegAddr} {rest : List Action} {p off : Nat} {q : Port} {r : Register}

/-- A read whose register has no value faults (R34). -/
theorem step_read_fault {f : Fault} (hin : s.inputs = .read a 32 :: rest)
    (hl : locate? s.params.regBase a = some (p, off)) (ho : off % 4 = 0) (hr : registerAt? off = some r)
    (hq : s.port? p = some q) (hf : readRegister { s with inputs := rest } q r = .error f) : step s = .fault f := by
  have hres : resolve { s with inputs := rest } a 32 = .register p q r := resolve_eq hl ho hr hq
  rw [step_cons hin]
  simp only [act, readAccess, hres, hf]

/-- An access that is narrow, wide or misaligned, or that reaches a reserved offset, has no meaning (R54). -/
theorem resolve_refused {width : Nat} (hl : locate? s.params.regBase a = some (p, off))
    (hbad : width ≠ 32 ∨ off % 4 ≠ 0 ∨ registerAt? off = none) : ∃ e, resolve s a width = .refused e := by
  by_cases hwidth : width = 32
  · by_cases halign : off % 4 = 0
    · obtain h | h | hreserved := hbad
      · exact absurd hwidth h
      · exact absurd halign h
      · exact ⟨.accessReserved, by simp [resolve, hl, hwidth, halign, hreserved]⟩
    · exact ⟨.accessMisaligned, by simp [resolve, hl, hwidth, halign]⟩
  · exact ⟨.accessWidth, by simp [resolve, hl, hwidth]⟩

end access

/-- Settles O42: each offset is that of its register. -/
theorem readsReturnRegisters : Obligations.ReadsReturnRegisters := by
  intro s a rest p off q hin hl hq
  refine ⟨?_, ?_, ?_, ?_, ?_⟩
  · rintro rfl
    exact step_read hin hl (by decide) rfl hq rfl
  · rintro rfl
    exact step_read hin hl (by decide) rfl hq rfl
  · rintro rfl hvalid
    exact step_read hin hl (by decide) rfl hq (if_pos hvalid)
  · rintro rfl hvalid
    exact step_read hin hl (by decide) rfl hq (if_pos hvalid)
  · rintro rfl
    exact step_read hin hl (by decide) rfl hq rfl

/-- Settles O43: both results have no value while VALID is 0. -/
theorem resultReadWithoutValidFaults : Obligations.ResultReadWithoutValidFaults := by
  intro s a rest p off q hin hl hq hoff hvalid
  have hno : ¬ q.valid = true := Bool.eq_false_iff.mp hvalid
  obtain rfl | rfl := hoff
  · exact step_read_fault hin hl (by decide) rfl hq (if_neg hno)
  · exact step_read_fault hin hl (by decide) rfl hq (if_neg hno)

/-- Settles O44: none of the four offsets is that of `CMD`. -/
theorem writesToReadOnlyRegistersAreIgnored : Obligations.WritesToReadOnlyRegistersAreIgnored := by
  intro s a w rest p off q hin hl hq hoff
  obtain rfl | rfl | rfl | rfl := hoff <;> exact step_write_ignored hin hl (by decide) rfl hq (by decide)

/-- Settles O45: the access is resolved before it reads or writes. -/
theorem badAccessesAreRefused : Obligations.BadAccessesAreRefused := by
  intro s a w rest p off width hin hl hbad
  have hbad' : width ≠ 32 ∨ off % 4 ≠ 0 ∨ registerAt? off = none := by
    obtain h | h | rfl | rfl | rfl := hbad
    · exact .inl h
    · exact .inr (.inl h)
    all_goals exact .inr (.inr rfl)
  obtain ⟨e, hres⟩ := resolve_refused (s := { s with inputs := rest }) hl hbad'
  refine ⟨e, ?_⟩
  obtain hin | hin := hin <;> rw [step_cons hin] <;> simp only [act, writeAccess, readAccess, hres]

/-! ## The STATUS word (R29, R32) -/

section status
variable (q : Port)

theorem pending_iff : q.pending = true ↔ ∃ w, q.phase = .hold w := by
  unfold Port.pending
  cases q.phase <;> simp

theorem statusWord_code : q.statusWord.extractLsb' 0 4 = q.code.value :=
  BitVec.extractLsb'_append_eq_right

theorem statusWord_valid : q.statusWord.getLsbD 4 = q.valid := by
  simp only [Port.statusWord, BitVec.getLsbD_append]
  simp

theorem statusWord_pending : q.statusWord.getLsbD 5 = q.pending := by
  simp only [Port.statusWord, BitVec.getLsbD_append]
  simp

/-- The fields above PENDING stand over the eight bits up to it and a gap. -/
theorem statusWord_gap : q.statusWord.extractLsb' 6 2 = 0#2 := by
  unfold Port.statusWord
  iterate rw [BitVec.extractLsb'_append_eq_of_le (by decide)]
  exact BitVec.extractLsb'_append_eq_right

theorem statusWord_consumed : q.statusWord.extractLsb' 8 5 = q.consumed := by
  unfold Port.statusWord
  iterate rw [BitVec.extractLsb'_append_eq_of_le (by decide)]
  exact BitVec.extractLsb'_append_eq_right

theorem statusWord_reserved : q.statusWord.extractLsb' 13 19 = 0#19 := by
  unfold Port.statusWord
  iterate rw [BitVec.extractLsb'_append_eq_of_le (by decide)]
  rfl

end status

/-- Settles O39, field by field. -/
theorem statusWordLayout : Obligations.StatusWordLayout := by
  refine fun q => ⟨?_, statusWord_valid q, ?_, statusWord_gap q, statusWord_consumed q, statusWord_reserved q⟩
  · rw [statusWord_code]
    cases q.code <;> rfl
  · rw [statusWord_pending, pending_iff]

/-! ## Cursor actions (R196, R63) -/

section cursor
variable {p pos : Nat} {bits : List Bool} {s : State} {q : Port} (hq : s.port? p = some q)
include hq

theorem changeCursor_of_hold {w : Word} (hphase : q.phase = .hold w) :
    changeCursor p bits pos s = .refused .cursorWhileHold := by
  simp only [changeCursor, hq, hphase]

theorem changeCursor_beyond_end (hphase : q.phase = .idle) (hpos : bits.length < pos) :
    changeCursor p bits pos s = .refused .positionOutOfRange := by
  simp only [changeCursor, hq, hphase, if_neg hpos.not_ge]

/-- The three rules of a cursor action, for the attach and the move alike. -/
theorem changeCursor_rules :
    (q.phase = .idle → pos ≤ bits.length →
      changeCursor p bits pos s = .next (s.setPort p { q with cursor := some ⟨bits, pos⟩ })) ∧
    (q.phase = .idle → bits.length < pos → changeCursor p bits pos s = .refused .positionOutOfRange) ∧
    (∀ w, q.phase = .hold w → changeCursor p bits pos s = .refused .cursorWhileHold) :=
  ⟨changeCursor_eq hq, changeCursor_beyond_end hq, fun _ => changeCursor_of_hold hq⟩

end cursor

/-- Settles O46: a move is a change of the cursor to its own stream. -/
theorem cursorActionsFollowTheirRules : Obligations.CursorActionsFollowTheirRules := by
  intro s rest p pos bits q hq
  refine ⟨fun hin => ?_, fun cur hin hc => ?_⟩
  · rw [step_cons hin]
    exact changeCursor_rules hq
  · have hseek : step s = changeCursor p cur.bits pos { s with inputs := rest } :=
      (step_cons hin).trans (seek_eq (s := { s with inputs := rest }) hq hc)
    rw [hseek]
    exact changeCursor_rules hq

/-! ## A command written to `CMD` -/

/-- Settles O7: the access reaches `CMD`, and a legal word written there is executed. -/
theorem stepRunsDecodedCommand : Obligations.StepRunsDecodedCommand := by
  intro s a w rest p q i hin hl hq hphase hi
  calc step s
      = writeCmd p w { s with inputs := rest } := step_write_cmd hin hl hq
    _ = exec i { s with inputs := rest, cur := p } := writeCmd_ok (s := { s with inputs := rest }) hq hphase hi

/-! ## Reset (R190, R191) -/

/-- A port after a reset shows nothing of what it was. -/
theorem afterReset_shows (q : Port) :
    q.afterReset.phase = .idle ∧ q.afterReset.statusWord = 0#32 ∧ q.afterReset.cursor = none := by
  have hstatus : q.afterReset.statusWord = Port.reset.statusWord := rfl
  exact ⟨rfl, hstatus.trans rfl, rfl⟩

/-- Settles O38: a reset builds every port anew and writes neither the parameters nor the schedule. -/
theorem resetAbandonsBuildsAndHolds : Obligations.ResetAbandonsBuildsAndHolds := by
  intro s rest hin
  refine ⟨_, step_cons hin, rfl, List.length_map _, rfl, rfl, resetBlock_cb _, fun q hq => ?_⟩
  obtain ⟨q₀, -, rfl⟩ := List.mem_map.mp hq
  exact afterReset_shows q₀

/-- Settles O37: a codebook that is not BUILT shows no table and no values, and every port is the one after reset. -/
theorem stateAfterReset : Obligations.StateAfterReset := by
  refine ⟨fun c => ?_, cbStateWord_replicate_unbuilt, Nat.le_add_left _ _, fun q hq => ?_⟩
  · have hno : State.reset.cb c ≠ .built := by
      rw [reset_cb]
      decide
    exact ⟨reset_cb c, if_neg hno, if_neg hno⟩
  · rw [mem_reset_ports hq]
    exact ⟨rfl, rfl, rfl⟩

end Sys2Proof.Machine
